-- ==== Sys2Proof/Word.lean ====
section
/-! DEFINITION. The machine's two value sizes (spec/00_scope.md R6): every register, memory word, immediate, address
and value on the device bus is an unsigned 64-bit number, and the cells of `program` are 8-bit bytes. Nothing in this
machine is signed. -/

namespace Sys2Proof

/-- A byte of `program` (R20); also an opcode (R61). -/
abbrev Byte := BitVec 8

/-- A 64-bit unsigned value: register, word of `memory`, immediate, address, device value (R6, parameter XLEN of R4). -/
abbrev Word := BitVec 64

end Sys2Proof
end

