-- ==== Sys2Proof/Config.lean ====
section
/-! DEFINITION. What an implementation of the machine fixes: the fixed parameters of spec/00_scope.md R4, and the
devices of the platform (R5 parameter DEVICES, spec/20_memory.md R40, R56), whose answers no rule constrains.

The device answers are FREE VALUES: `Config.deviceRange`, `Config.deviceLoad` and `Config.deviceStoreOk` have no body,
so nothing proved about the machine can rest on a particular answer (log 1). -/

namespace Sys2Proof

/-- MEM_WORDS of R4: the number of 64-bit words of `memory`. -/
def Config.memWords : Nat := 65536

/-- PROG_BYTES of R4: the number of bytes of `program`. -/
def Config.progBytes : Nat := 65536

/-- MEM_LAST of R4: the last router address of region 0, `memory` (R31). -/
def Config.memLast : Nat := 0xFFFF

/-- PROG_BASE of R4: the first router address of region 1, program-as-data (R31). -/
def Config.progBase : Nat := 0x10000

/-- PROG_LAST of R4: the last router address of region 1 (R31). -/
def Config.progLast : Nat := 0x1FFFF

/-- IMM_BYTES of R4: bytes of operand after an immediate-carrying opcode. -/
def Config.immBytes : Nat := 8

/-- One call the router has made on a device (R40), with the number of the tick that made it. A query of the address
range changes nothing (R40, D25) and is no call. -/
inductive DeviceCall where
  /-- `load(addr)` was called. -/
  | load (tick : Nat) (addr : Word)
  /-- `store(addr, value)` was called, whether it succeeded or failed. -/
  | store (tick : Nat) (addr value : Word)
  deriving DecidableEq, Repr

/-- The behaviour of every device of a platform (R40, R56). A device is named by its position in the device list; its
internal state is what the calls it has received have made of it, so each answer is a function of the position, of
those calls (oldest first) and of the number of the present tick, by which a device may also change on its own
(R41 "may differ from the previous answer", R161). -/
structure Platform where
  /-- `address_range()`: the inclusive bounds `(min, max)` (R40, R41). -/
  range : (position : Nat) → (calls : List DeviceCall) → (tick : Nat) → Word × Word
  /-- `load(addr)`: the value returned; a device load cannot fail (R40, D13). -/
  loadValue : (position : Nat) → (calls : List DeviceCall) → (tick : Nat) → (addr : Word) → Word
  /-- `store(addr, value)`: true for success, false for failure (R40). -/
  storeOk : (position : Nat) → (calls : List DeviceCall) → (tick : Nat) → (addr value : Word) → Bool

/-- FREE VALUE (log 1): the address range a device reports. -/
opaque Config.deviceRange : Nat → List DeviceCall → Nat → Word × Word

/-- FREE VALUE (log 1): the value a device load returns. -/
opaque Config.deviceLoad : Nat → List DeviceCall → Nat → Word → Word

/-- FREE VALUE (log 1): whether a device store succeeds. -/
opaque Config.deviceStoreOk : Nat → List DeviceCall → Nat → Word → Word → Bool

/-- The platform the machine is attached to: all three answers free (U7, D28). -/
def Config.platform : Platform :=
  { range := Config.deviceRange, loadValue := Config.deviceLoad, storeOk := Config.deviceStoreOk }

end Sys2Proof
end

