-- ==== Sys2Proof/Syntax.lean ====
section
/-! DEFINITION. The typed instruction (spec/30_encoding.md R71): exactly the forty variants of R65, in the order of
spec/opcode_table.json; nine carry one unsigned 64-bit field, an address or a literal, and no variant carries a
register number, a length or a position. -/

namespace Sys2Proof

/-- A decoded instruction (R71). -/
inductive Instr where
  /-- NoOp, opcode 0: nothing (R82). -/
  | noOp
  /-- LoadBusA, opcode 1: A <- MemRead(addr, 1) (R126). -/
  | loadBusA (addr : Word)
  /-- LoadBusB, opcode 2: B <- MemRead(addr, 1) (R127). -/
  | loadBusB (addr : Word)
  /-- Add, opcode 3: A <- (A + B) mod 2^64 (R90). -/
  | add
  /-- Subtract, opcode 4: A <- (A - B) mod 2^64 (R91). -/
  | subtract
  /-- Multiply, opcode 5: A <- (A * B) mod 2^64 (R92). -/
  | multiply
  /-- Divide, opcode 6: if B = 0 raise DivideByZero else A <- floor(A / B) (R93). -/
  | divide
  /-- CopyAB, opcode 7: B <- A (R100). -/
  | copyAB
  /-- CopyBA, opcode 8: A <- B (R101). -/
  | copyBA
  /-- SwapAB, opcode 9: swap A, B (R102). -/
  | swapAB
  /-- PushABus, opcode 10: MemWrite(addr, 1, A) (R129). -/
  | pushABus (addr : Word)
  /-- PushBBus, opcode 11: MemWrite(addr, 1, B) (R130). -/
  | pushBBus (addr : Word)
  /-- LoadA, opcode 12: A <- imm (R120). -/
  | loadA (imm : Word)
  /-- LoadB, opcode 13: B <- imm (R121). -/
  | loadB (imm : Word)
  /-- LoadBusX, opcode 14: X <- MemRead(addr, 1) (R128). -/
  | loadBusX (addr : Word)
  /-- CopyAX, opcode 15: X <- A (R103). -/
  | copyAX
  /-- CopyBX, opcode 16: X <- B (R104). -/
  | copyBX
  /-- PushXBus, opcode 17: MemWrite(addr, 1, X) (R131). -/
  | pushXBus (addr : Word)
  /-- LoadX, opcode 18: X <- imm (R122). -/
  | loadX (imm : Word)
  /-- CopyXA, opcode 19: A <- X (R105). -/
  | copyXA
  /-- CopyXB, opcode 20: B <- X (R106). -/
  | copyXB
  /-- LoadBusAS, opcode 21: A <- MemRead(S, 1) (R132). -/
  | loadBusAS
  /-- LoadBusBS, opcode 22: B <- MemRead(S, 1) (R133). -/
  | loadBusBS
  /-- CopyAS, opcode 23: S <- A (R107). -/
  | copyAS
  /-- CopyBS, opcode 24: S <- B (R108). -/
  | copyBS
  /-- CopyXS, opcode 25: S <- X (R109). -/
  | copyXS
  /-- CopySA, opcode 26: A <- S (R110). -/
  | copySA
  /-- CopySB, opcode 27: B <- S (R111). -/
  | copySB
  /-- CopySX, opcode 28: X <- S (R112). -/
  | copySX
  /-- SwapAS, opcode 29: swap A, S (R113). -/
  | swapAS
  /-- SwapBS, opcode 30: swap B, S (R114). -/
  | swapBS
  /-- PushABusS, opcode 31: MemWrite(S, 1, A) (R135). -/
  | pushABusS
  /-- PushBBusS, opcode 32: MemWrite(S, 1, B) (R136). -/
  | pushBBusS
  /-- LoadBusXS, opcode 33: X <- MemRead(S, 1) (R134). -/
  | loadBusXS
  /-- PushXBusS, opcode 34: MemWrite(S, 1, X) (R137). -/
  | pushXBusS
  /-- SkipEq, opcode 35: if A = B then skip the next instruction (R141). -/
  | skipEq
  /-- SkipGrEq, opcode 36: if A >= B then skip the next instruction (R142). -/
  | skipGrEq
  /-- SkipGr, opcode 37: if A > B then skip the next instruction (R143). -/
  | skipGr
  /-- SkipLe, opcode 38: if A < B then skip the next instruction (R144). -/
  | skipLe
  /-- SkipLeEq, opcode 39: if A <= B then skip the next instruction (R145). -/
  | skipLeEq
  deriving DecidableEq, Repr

/-- The one 64-bit field of the nine immediate-carrying variants (R71); the other thirty-one carry nothing. -/
def Instr.immediate : Instr → Option Word
  | .loadBusA v | .loadBusB v | .pushABus v | .pushBBus v | .loadA v
  | .loadB v | .loadBusX v | .pushXBus v | .loadX v => some v
  | .noOp | .add | .subtract | .multiply | .divide | .copyAB
  | .copyBA | .swapAB | .copyAX | .copyBX | .copyXA | .copyXB
  | .loadBusAS | .loadBusBS | .copyAS | .copyBS | .copyXS | .copySA
  | .copySB | .copySX | .swapAS | .swapBS | .pushABusS | .pushBBusS
  | .loadBusXS | .pushXBusS | .skipEq | .skipGrEq | .skipGr | .skipLe
  | .skipLeEq => none

end Sys2Proof
end

