-- ==== Sys2Proof/WellFormed.lean ====
section
/-! DEFINITION. What can be ill-formed about an instruction or an image, checked.

Every typed instruction is legal by itself: the field of an immediate-carrying variant may be any of the 2^64 values
(spec/30_encoding.md R63), the other variants carry nothing (R71), and no bit of an encoding is reserved (R70). Two
checks remain: an instruction placed in `program` must lie inside positions 0 to 65535 (R69, R76), and the image the
constructor is given holds at most 65536 bytes (spec/70_reset_and_hazards.md R173). -/

namespace Sys2Proof

/-- The length in bytes of an instruction's encoding: one opcode byte, and eight operand bytes where the variant
carries an immediate (R60, R61, R62). -/
def Instr.length (i : Instr) : Nat :=
  match i.immediate with
  | some _ => 1 + Config.immBytes
  | none => 1

/-- The whole encoding of `i`, placed at `position`, lies inside `program` (R69, R76). -/
def Instr.fitsAt (i : Instr) (position : Nat) : Bool :=
  decide (position + i.length ≤ Config.progBytes)

/-- The bytes handed to the constructor are at most the 65536 of the image; a shorter list stands for an image whose
remaining bytes are 0 (R173, D15). -/
def imageFits (image : List Byte) : Bool :=
  decide (image.length ≤ Config.progBytes)

end Sys2Proof
end

