-- ==== Sys2Proof/Decode.lean ====
section
/-! DEFINITION. The Instruction Decoder (spec/30_encoding.md) and its inverse.

`decodeBytes` reads the instruction at the front of a list of bytes: total, a pure function of the bytes (R75), and it
rejects by name. The opcode bytes 0, 3, 6, 10 and 12 are the source's (R64); the others, and the size of the recognised
set, are the spec's decisions D1 and D2, kept in the one table `opcodeMap` (log 9). -/

namespace Sys2Proof

/-- How an opcode byte's instruction is read: format `OP` is the byte alone (R61), format `OPI` takes a 64-bit
immediate from the eight bytes after it (R62). -/
inductive Format where
  /-- One byte, no immediate. -/
  | op (i : Instr)
  /-- Nine bytes; the immediate makes the instruction. -/
  | opi (withImmediate : Word → Instr)

/-- The complete opcode map (R65): the n-th entry, counted from 0, is the instruction of opcode byte n. -/
def opcodeMap : List Format :=
  [.op .noOp, .opi .loadBusA, .opi .loadBusB, .op .add, .op .subtract,
   .op .multiply, .op .divide, .op .copyAB, .op .copyBA, .op .swapAB,
   .opi .pushABus, .opi .pushBBus, .opi .loadA, .opi .loadB, .opi .loadBusX,
   .op .copyAX, .op .copyBX, .opi .pushXBus, .opi .loadX, .op .copyXA,
   .op .copyXB, .op .loadBusAS, .op .loadBusBS, .op .copyAS, .op .copyBS,
   .op .copyXS, .op .copySA, .op .copySB, .op .copySX, .op .swapAS,
   .op .swapBS, .op .pushABusS, .op .pushBBusS, .op .loadBusXS, .op .pushXBusS,
   .op .skipEq, .op .skipGrEq, .op .skipGr, .op .skipLe, .op .skipLeEq]

/-- `variant(b)` of R67: the map's entry for an opcode byte; none for the bytes 40 to 255 (R68). -/
def variant (b : Byte) : Option Format :=
  opcodeMap[b.toNat]?

/-- `ilen(b)` of R66: the length an opcode byte gives an instruction, total on all 256 values. -/
def ilen (b : Byte) : Nat :=
  if b.toNat ∈ [1, 2, 10, 11, 12, 13, 14, 17, 18] then 1 + Config.immBytes else 1

/-- The bytes read as a big-endian unsigned number, most significant byte first (R63, R43). -/
def bigEndian (bytes : List Byte) : Word :=
  bytes.foldl (fun acc b => acc <<< 8 ||| b.setWidth 64) 0

/-- Why decoding fails (R68, R69); the position is known to the fetch, which adds it. -/
inductive DecodeError where
  /-- The opcode byte, or some of the eight operand bytes of an `OPI` opcode, is not there (R69). -/
  | outOfInstructions
  /-- The opcode byte is not one of the recognised forty (R68). -/
  | illegalInstruction (byte : Byte)
  deriving DecidableEq, Repr

/-- `decode` of R67 on the bytes from an instruction's position to the end of the image: the instruction and its
length. The checks are made in the rule's order: position, opcode, operand room. -/
def decodeBytes : List Byte → Except DecodeError (Instr × Nat)
  | [] => .error .outOfInstructions
  | b :: operand =>
    match variant b with
    | none => .error (.illegalInstruction b)
    | some (.op i) => .ok (i, 1)
    | some (.opi withImmediate) =>
      if operand.length < Config.immBytes then .error .outOfInstructions
      else .ok (withImmediate (bigEndian (operand.take Config.immBytes)), 1 + Config.immBytes)

/-- The opcode byte of a typed instruction, written from the "byte (dec)" column of R65. -/
def Instr.opcode : Instr → Byte
  | .noOp => 0
  | .loadBusA _ => 1
  | .loadBusB _ => 2
  | .add => 3
  | .subtract => 4
  | .multiply => 5
  | .divide => 6
  | .copyAB => 7
  | .copyBA => 8
  | .swapAB => 9
  | .pushABus _ => 10
  | .pushBBus _ => 11
  | .loadA _ => 12
  | .loadB _ => 13
  | .loadBusX _ => 14
  | .copyAX => 15
  | .copyBX => 16
  | .pushXBus _ => 17
  | .loadX _ => 18
  | .copyXA => 19
  | .copyXB => 20
  | .loadBusAS => 21
  | .loadBusBS => 22
  | .copyAS => 23
  | .copyBS => 24
  | .copyXS => 25
  | .copySA => 26
  | .copySB => 27
  | .copySX => 28
  | .swapAS => 29
  | .swapBS => 30
  | .pushABusS => 31
  | .pushBBusS => 32
  | .loadBusXS => 33
  | .pushXBusS => 34
  | .skipEq => 35
  | .skipGrEq => 36
  | .skipGr => 37
  | .skipLe => 38
  | .skipLeEq => 39

/-- The eight operand bytes of an immediate, most significant first (R62, R76). -/
def immediateBytes (v : Word) : List Byte :=
  [v.extractLsb' 56 8, v.extractLsb' 48 8, v.extractLsb' 40 8, v.extractLsb' 32 8,
   v.extractLsb' 24 8, v.extractLsb' 16 8, v.extractLsb' 8 8, v.extractLsb' 0 8]

/-- The inverse of decode (R76): the opcode byte, followed by the bytes of the field where the variant carries one. -/
def encode (i : Instr) : List Byte :=
  i.opcode :: (match i.immediate with
    | some v => immediateBytes v
    | none => [])

/-- The longest instruction, in bytes (R60). -/
def longestInstr : Nat := 1 + Config.immBytes

/-- The bytes of an instruction given as one number `w` of `nbits` bits, bit 0 the least significant bit of the first
byte: byte n is bits 8n+7..8n, and every bit above `nbits` is 0, up to the longest instruction. -/
def tableWordBytes (nbits w : Nat) : List Byte :=
  (List.range longestInstr).map fun n => BitVec.ofNat 8 ((w % 2 ^ nbits) >>> (8 * n))

/-- The instruction the decoder reads from an opcode-table word (its bytes laid out as `tableWordBytes` says, the
first at the lowest position). -/
def decodeTableWord (nbits w : Nat) : Option Instr :=
  match decodeBytes (tableWordBytes nbits w) with
  | .ok (i, _) => some i
  | .error _ => none

end Sys2Proof
end

