-- ==== Sys2Proof/Machine/State.lean ====
section
/-! DEFINITION. The whole state of the machine (spec/10_state.md): four 64-bit registers, the word array `memory`, the
byte array `program`, the ordered device list, and the model's own tick counter. There are no flags, control
registers, modes or hidden state (R16, R17, R18, R23, R164). -/

namespace Sys2Proof.Machine

/-- `memory` (R19): 65536 words of 64 bits, held as the (address, word) pairs that differ from the unlisted value,
addresses strictly rising. Its cell is a whole word: no byte of a word has an address (R43). -/
abbrev WordMemory := List (Nat × Word)

/-- `program` (R20): 65536 bytes, held as the (position, byte) pairs that differ from the unlisted value, positions
strictly rising. -/
abbrev ByteMemory := List Host.Cell

/-- A register's name (R7, R10); the encoding has no register numbers (R61). -/
inductive Reg where
  /-- A, the accumulator (R11). -/
  | a
  /-- B, the operand register (R12). -/
  | b
  /-- S, the address register (R13). -/
  | s
  /-- X, the program counter (R14). -/
  | x
  deriving DecidableEq, Repr

/-- A device handle of the device list (R22). Its internal state is opaque to the machine (R23): what the machine has
done to it is the list of calls it has received, oldest first, and the platform answers from that (log 1). -/
structure Device where
  calls : List DeviceCall
  deriving DecidableEq, Repr

/-- The machine's state (R10, R15, R19, R20, R22). -/
structure State where
  /-- Register A (R11). -/
  regA : Word
  /-- Register B (R12). -/
  regB : Word
  /-- Register S (R13). -/
  regS : Word
  /-- Register X, which is the program counter (R14, R15). -/
  regX : Word
  /-- The 65536-word array `memory` (R19). -/
  memory : WordMemory
  /-- The 65536-byte array `program` (R20). -/
  program : ByteMemory
  /-- The device list, position 0 first (R22). -/
  devices : List Device
  /-- THE MODEL'S OWN: how many ticks have been attempted; it makes each tick's device answers fresh free values
  (R56, log 2). No instruction reads it. -/
  ticks : Nat
  deriving DecidableEq, Repr

/-- The errors a tick returns to the host: the closed list of R150. Each is the spec's own, raised exactly where the
spec raises it, so stopping with it is SAFE. After any of them the core is as before the tick (R156). -/
inductive Fault where
  /-- Raised by the fetch of any tick (R69, R151): the position of the opcode byte that could not be fetched or
  completed. Safe. -/
  | outOfInstructions (pos : Word)
  /-- Raised by the fetch of any tick (R68, R152): the offending opcode byte and its position. Safe. -/
  | illegalInstruction (byte : Byte) (pos : Word)
  /-- Raised by the six load instructions (R42, R153): the address no device claims. Safe. -/
  | illegalAddressLoad (addr : Word)
  /-- Raised by the six store instructions (R42, R154): the address no device claims. Safe. -/
  | illegalAddressStore (addr : Word)
  /-- Raised by Divide when B = 0 (R93, R155). Safe. -/
  | divideByZero
  /-- Raised by the six store instructions (R39, R157): the address and the list position of the device whose store
  failed. The third field is no part of the error value of R150: it is the device list as the failed store leaves it,
  since devices already called keep the call while the core is restored (log 4). Safe. -/
  | deviceError (addr : Word) (dev : Nat) (left : List Device)
  deriving DecidableEq, Repr

/-- Why the model gives an instruction no meaning. -/
inductive Refusal where
  /-- Raised only by an arm of `exec` whose instruction has no meaning yet; no arm is left that does. Safe. -/
  | notModelled (mnemonic : String)
  deriving DecidableEq, Repr

/-- The machine right after construction (R24, R170): registers and `memory` zero, X = 0. The image and the device
list are the constructor's arguments (R5); here they are the image of zero bytes and no device (DESIGN CHOICE, log 3),
and `State.new` takes any. The counter of ticks starts at 0 (DESIGN CHOICE, log 2). -/
def State.reset : State :=
  { regA := 0, regB := 0, regS := 0, regX := 0, memory := [], program := [], devices := [], ticks := 0 }

end Sys2Proof.Machine
end

