-- ==== Sys2Proof/Machine/Flags.lean ====
section
/-! DEFINITION. This machine has no flags (spec/10_state.md R16): no instruction records carry, overflow, zero or sign.
What a machine with flags would compute from them, the five Skip instructions compute themselves from A and B
(spec/45_skip_compare.md R140); those comparisons stand here. -/

namespace Sys2Proof.Machine

/-- The relation a Skip names, A on the left and B on the right (R140, D7). -/
inductive Relation where
  /-- "Eq": equal (R141). -/
  | eq
  /-- "GrEq": greater or equal (R142). -/
  | grEq
  /-- "Gr": greater (R143). -/
  | gr
  /-- "Le": less, strictly (R144). -/
  | le
  /-- "LeEq": less or equal (R145). -/
  | leEq
  deriving DecidableEq, Repr

/-- Whether the relation holds between two values, compared as unsigned 64-bit integers (R140). -/
def Relation.holds (rel : Relation) (left right : Word) : Bool :=
  match rel with
  | .eq => decide (left.toNat = right.toNat)
  | .grEq => decide (right.toNat ≤ left.toNat)
  | .gr => decide (right.toNat < left.toNat)
  | .le => decide (left.toNat < right.toNat)
  | .leEq => decide (left.toNat ≤ right.toNat)

end Sys2Proof.Machine
end

