-- ==== Sys2Proof/Machine/Memory.lean ====
section
/-! DEFINITION. The two arrays `memory` and `program` as sparse lists of cells in one canonical form: indices strictly
rising, all below 65536, and no entry equal to what an unlisted index reads as. The two arrays have the same number of
cells (R4 MEM_WORDS, PROG_BYTES), so one definition serves both, at the widths 64 and 8. -/

namespace Sys2Proof.Machine

/-- What an unlisted index reads as: 0. For `memory` that is its value at reset (R24); for `program` it is the padding
of an image shorter than 65536 bytes (R173, D15). -/
def Memory.unlisted {w : Nat} : BitVec w := 0

/-- The cell at an index. -/
def Memory.read {w : Nat} : List (Nat × BitVec w) → Nat → BitVec w
  | [], _ => Memory.unlisted
  | (k, v) :: rest, i => if k = i then v else Memory.read rest i

/-- The cells without any entry for an index. -/
def Memory.erase {w : Nat} (cells : List (Nat × BitVec w)) (i : Nat) : List (Nat × BitVec w) :=
  cells.filter fun c => c.1 ≠ i

/-- The cells with an entry put before the first one of a greater index. -/
def Memory.insert {w : Nat} : List (Nat × BitVec w) → Nat → BitVec w → List (Nat × BitVec w)
  | [], i, v => [(i, v)]
  | (k, x) :: rest, i, v => if i < k then (i, v) :: (k, x) :: rest else (k, x) :: Memory.insert rest i v

/-- The cells with the cell at an index set; writing the unlisted value removes the entry, so equal arrays are equal
lists. -/
def Memory.write {w : Nat} (cells : List (Nat × BitVec w)) (i : Nat) (v : BitVec w) : List (Nat × BitVec w) :=
  if v = Memory.unlisted then Memory.erase cells i else Memory.insert (Memory.erase cells i) i v

/-- The canonical form from index `lo` on. -/
def Memory.wfFrom {w : Nat} : Nat → List (Nat × BitVec w) → Bool
  | _, [] => true
  | lo, (k, v) :: rest =>
    decide (lo ≤ k) && decide (k < Config.memWords) && decide (v ≠ Memory.unlisted) && Memory.wfFrom (k + 1) rest

/-- The canonical form holds (R19, R20: 65536 cells, never resized). -/
def Memory.wf {w : Nat} (cells : List (Nat × BitVec w)) : Bool :=
  Memory.wfFrom 0 cells

/-- The list of bytes written from an index on, one after the other. Bytes past the last cell do not exist and are
left out. -/
def Memory.writeAll : ByteMemory → Nat → List Byte → ByteMemory
  | cells, _, [] => cells
  | cells, i, b :: rest =>
    if i < Config.progBytes then Memory.writeAll (Memory.write cells i b) (i + 1) rest else cells

end Sys2Proof.Machine
end

