-- ==== Sys2Proof/Machine/Operands.lean ====
section
/-! DEFINITION. Where operands come from and where results go: the register file (spec/10_state.md R7, R10) and the
two addressing modes (spec/44_bus_load_store.md R125). The only other operand form is the 64-bit literal of LoadA,
LoadB and LoadX, which is the instruction's own field. -/

namespace Sys2Proof.Machine

/-- `x[r]`, read (R7). -/
def State.reg (s : State) : Reg → Word
  | .a => s.regA
  | .b => s.regB
  | .s => s.regS
  | .x => s.regX

/-- `x[r] <- v` (R7): all 64 bits are written (R10); a write of X is a jump (R14, R83). -/
def State.setReg (s : State) (r : Reg) (v : Word) : State :=
  match r with
  | .a => { s with regA := v }
  | .b => { s with regB := v }
  | .s => { s with regS := v }
  | .x => { s with regX := v }

/-- The two addressing modes of R125. -/
inductive AddrMode where
  /-- The effective address is the immediate. -/
  | absolute (imm : Word)
  /-- The effective address is the whole value of S. -/
  | throughS
  deriving DecidableEq, Repr

/-- The effective address `ea` (R125). -/
def State.effAddr (s : State) : AddrMode → Word
  | .absolute imm => imm
  | .throughS => s.regS

end Sys2Proof.Machine
end

