-- ==== Sys2Proof/Machine/Router.lean ====
section
/-! DEFINITION. The Address Router and the Device Bus (spec/20_memory.md): the two operations `load(addr)` and
`store(addr, v)` every bus instruction uses. They are written over ANY platform (R56); the machine uses them at
`Config.platform`, whose answers are free. -/

namespace Sys2Proof.Machine

/-- A device with range `(min, max)` claims `addr` exactly when `min <= addr <= max`, both inclusive (R41, D12). -/
def rangeClaims (range : Word × Word) (addr : Word) : Bool :=
  decide (range.1.toNat ≤ addr.toNat) && decide (addr.toNat ≤ range.2.toNat)

/-- The device at position `k` claims `addr` at this access: its range is asked afresh (R37, R41). -/
def deviceClaims (p : Platform) (tick : Nat) (addr : Word) (k : Nat) (d : Device) : Bool :=
  rangeClaims (p.range k d.calls tick) addr

/-- The device after one more call. -/
def Device.called (d : Device) (c : DeviceCall) : Device :=
  { calls := d.calls ++ [c] }

/-- The scan of a load (R32, R37, R38) over the devices from position `k` on, `found` being the value of the last
claiming device before them: every claiming device is read, in list order, and the last one's value is the result. -/
def scanLoad (p : Platform) (tick : Nat) (addr : Word) :
    Nat → Option Word → List Device → Option Word × List Device
  | _, found, [] => (found, [])
  | k, found, d :: ds =>
    if deviceClaims p tick addr k d then
      let r := scanLoad p tick addr (k + 1) (some (p.loadValue k d.calls tick addr)) ds
      (r.1, d.called (.load tick addr) :: r.2)
    else
      let r := scanLoad p tick addr (k + 1) found ds
      (r.1, d :: r.2)

/-- What the scan of a store did (R33). -/
structure StoreScan where
  /-- Some device claimed the address. -/
  found : Bool
  /-- The position of the device whose store failed, where one did. -/
  failed : Option Nat
  /-- The devices after the scan. -/
  devices : List Device
  deriving DecidableEq, Repr

/-- The scan of a store (R33, R37, R39) over the devices from position `k` on, `found` saying whether a device before
them claimed the address: every claiming device is stored to, in list order, and the scan stops at the first
failure, later devices not being called. The failing device has received the call. -/
def scanStore (p : Platform) (tick : Nat) (addr v : Word) : Nat → Bool → List Device → StoreScan
  | _, found, [] => { found := found, failed := none, devices := [] }
  | k, found, d :: ds =>
    if deviceClaims p tick addr k d then
      if p.storeOk k d.calls tick addr v then
        let r := scanStore p tick addr v (k + 1) true ds
        { r with devices := d.called (.store tick addr v) :: r.devices }
      else
        { found := true, failed := some k, devices := d.called (.store tick addr v) :: ds }
    else
      let r := scanStore p tick addr v (k + 1) found ds
      { r with devices := d :: r.devices }

/-- The router's `load(addr)` (R32): the 64-bit value, and the state with the devices it called. Regions 0 and 1 are
chosen by numeric range alone and come first (R31). -/
def routeLoad (p : Platform) (s : State) (addr : Word) : Except Fault (Word × State) :=
  if addr.toNat ≤ Config.memLast then
    .ok (Memory.read s.memory addr.toNat, s)
  else if addr.toNat ≤ Config.progLast then
    .ok ((Memory.read s.program (addr.toNat - Config.progBase)).setWidth 64, s)
  else
    match scanLoad p s.ticks addr 0 none s.devices with
    | (some v, ds) => .ok (v, { s with devices := ds })
    | (none, _) => .error (.illegalAddressLoad addr)

/-- The router's `store(addr, v)` (R33): a word of `memory`, the low 8 bits into a byte of `program` (R36), or the
devices (R39, R42). -/
def routeStore (p : Platform) (s : State) (addr v : Word) : Except Fault State :=
  if addr.toNat ≤ Config.memLast then
    .ok { s with memory := Memory.write s.memory addr.toNat v }
  else if addr.toNat ≤ Config.progLast then
    .ok { s with program := Memory.write s.program (addr.toNat - Config.progBase) (v.setWidth 8) }
  else
    let r := scanStore p s.ticks addr v 0 false s.devices
    match r.failed with
    | some k => .error (.deviceError addr k r.devices)
    | none => if r.found then .ok { s with devices := r.devices } else .error (.illegalAddressStore addr)

end Sys2Proof.Machine
end

