-- ==== Sys2Proof/Machine/Ops.lean ====
section
/-! DEFINITION. The named operations the meanings are written with: the router, raising an error, loads, stores, copies,
swaps and skips. Those that reach the router take the platform of devices as an argument (R5 DEVICES). All of them act on the working state of a tick, in which X already
holds the position of the next sequential instruction (spec/40_tick_cycle.md R80, R81). -/

namespace Sys2Proof.Machine

/-- What one instruction or one step answers. -/
abbrev Result := Host.Outcome State Fault Refusal

/-- `MemRead(addr, 1)` (R7, R32). -/
def memRead (p : Platform) (s : State) (addr : Word) : Except Fault (Word × State) :=
  routeLoad p s addr

/-- `MemWrite(addr, 1, v)` (R7, R33). -/
def memWrite (p : Platform) (s : State) (addr v : Word) : Except Fault State :=
  routeStore p s addr v

/-- Error entry, the machine's only exception (R156): the tick ends with the error, which is the only record. No state
is saved, no register is written, no mode changes and control goes nowhere; the working state is dropped. -/
def raise (f : Fault) : Result :=
  .fault f

/-- The state in which a failed tick leaves the machine (R156): A, B, S, X, `memory` and `program` as before it, X
still at the instruction that failed. Only what lies outside the core moved: the devices a failed store had called
keep the call (R157), and the attempt counts as a tick (log 2). There is no return from an error and nothing to
restore: the next tick re-attempts the same instruction from this state (R161). -/
def State.afterFault (s : State) (f : Fault) : State :=
  { s with
    devices := match f with
      | .deviceError _ _ left => left
      | _ => s.devices
    ticks := s.ticks + 1 }

/-- `x[r] <- MemRead(ea, 1)` (R125): on an error no register changes. -/
def loadReg (p : Platform) (r : Reg) (mode : AddrMode) (s : State) : Result :=
  match memRead p s (s.effAddr mode) with
  | .ok (v, t) => .next (t.setReg r v)
  | .error f => raise f

/-- `MemWrite(ea, 1, x[r])` (R125): no register changes, S included. -/
def storeReg (p : Platform) (r : Reg) (mode : AddrMode) (s : State) : Result :=
  match memWrite p s (s.effAddr mode) (s.reg r) with
  | .ok t => .next t
  | .error f => raise f

/-- `x[dst] <- x[src]` (R115). -/
def copyReg (src dst : Reg) (s : State) : Result :=
  .next (s.setReg dst (s.reg src))

/-- Both registers exchanged at once (R115). -/
def swapRegs (r q : Reg) (s : State) : Result :=
  .next ((s.setReg r (s.reg q)).setReg q (s.reg r))

/-- `x[r] <- imm`, a literal (R120 to R122). -/
def loadLiteral (r : Reg) (imm : Word) (s : State) : Result :=
  .next (s.setReg r imm)

/-- `x[A] <- v`, the result of the ALU (R90 to R93). -/
def aluResult (v : Word) (s : State) : Result :=
  .next (s.setReg .a v)

/-- `skip()` of R140, X being already past the Skip: X moves past the instruction there, by the length its first byte
gives it; where there is no next instruction nothing is added. The skipped instruction is not decoded (D8). -/
def State.skip (s : State) : State :=
  if s.regX.toNat < Config.progBytes then
    { s with regX := s.regX + BitVec.ofNat 64 (ilen (Memory.read s.program s.regX.toNat)) }
  else s

/-- A Skip instruction: where the relation holds between A and B, one instruction is skipped (R140). -/
def skipWhen (rel : Relation) (s : State) : Result :=
  .next (if rel.holds s.regA s.regB then s.skip else s)

end Sys2Proof.Machine
end

