-- ==== Sys2Proof/Machine/Arithmetic.lean ====
section
/-! DEFINITION. The execute steps of the arithmetic instructions (spec/41_alu_arithmetic.md): exact on unsigned 64-bit
values, then reduced modulo 2^64 (R94, D5); A is written, B is not, and there is no flag. -/

namespace Sys2Proof.Machine

/-- Add: `x[A] <- (x[A] + x[B]) mod 2^64` (R90). -/
def execAdd (s : State) : Result :=
  aluResult (BitVec.ofNat 64 (s.regA.toNat + s.regB.toNat)) s

/-- Subtract: `x[A] <- (x[A] - x[B]) mod 2^64` (R91). -/
def execSubtract (s : State) : Result :=
  aluResult (BitVec.ofInt 64 ((s.regA.toNat : Int) - s.regB.toNat)) s

/-- Multiply: `x[A] <- (x[A] * x[B]) mod 2^64`, the low 64 bits of the product (R92). -/
def execMultiply (s : State) : Result :=
  aluResult (BitVec.ofNat 64 (s.regA.toNat * s.regB.toNat)) s

/-- Divide: `DivideByZero` where B = 0, and else `x[A] <- x[A] div x[B]`, the floor of the exact quotient (R93). -/
def execDivide (s : State) : Result :=
  if s.regB = 0 then raise .divideByZero
  else aluResult (BitVec.ofNat 64 (s.regA.toNat / s.regB.toNat)) s

end Sys2Proof.Machine
end

