-- ==== Sys2Proof/Machine/BusAccess.lean ====
section
/-! DEFINITION. The execute steps of the bus loads and stores (spec/44_bus_load_store.md R125), the address in the immediate
or in S. Each makes one router access; S is never changed by it. Each is written over any platform of devices (R5, R56),
`exec…On`; the meaning that `exec` dispatches to is that at `Config.platform`, whose answers are free (log 1). -/

namespace Sys2Proof.Machine

/-- LoadBusA: `x[A] <- MemRead(addr, 1)` (R126). -/
def execLoadBusAOn (p : Platform) (addr : Word) (s : State) : Result :=
  loadReg p .a (.absolute addr) s

/-- LoadBusA on the machine's own platform. -/
def execLoadBusA (addr : Word) (s : State) : Result :=
  execLoadBusAOn Config.platform addr s

/-- LoadBusB: `x[B] <- MemRead(addr, 1)` (R127). -/
def execLoadBusBOn (p : Platform) (addr : Word) (s : State) : Result :=
  loadReg p .b (.absolute addr) s

/-- LoadBusB on the machine's own platform. -/
def execLoadBusB (addr : Word) (s : State) : Result :=
  execLoadBusBOn Config.platform addr s

/-- LoadBusX: `x[X] <- MemRead(addr, 1)`, a memory-indirect jump (R128). -/
def execLoadBusXOn (p : Platform) (addr : Word) (s : State) : Result :=
  loadReg p .x (.absolute addr) s

/-- LoadBusX on the machine's own platform. -/
def execLoadBusX (addr : Word) (s : State) : Result :=
  execLoadBusXOn Config.platform addr s

/-- PushABus: `MemWrite(addr, 1, x[A])` (R129). -/
def execPushABusOn (p : Platform) (addr : Word) (s : State) : Result :=
  storeReg p .a (.absolute addr) s

/-- PushABus on the machine's own platform. -/
def execPushABus (addr : Word) (s : State) : Result :=
  execPushABusOn Config.platform addr s

/-- PushBBus: `MemWrite(addr, 1, x[B])` (R130). -/
def execPushBBusOn (p : Platform) (addr : Word) (s : State) : Result :=
  storeReg p .b (.absolute addr) s

/-- PushBBus on the machine's own platform. -/
def execPushBBus (addr : Word) (s : State) : Result :=
  execPushBBusOn Config.platform addr s

/-- PushXBus: `MemWrite(addr, 1, x[X])`, X being the position of the next instruction (R131). -/
def execPushXBusOn (p : Platform) (addr : Word) (s : State) : Result :=
  storeReg p .x (.absolute addr) s

/-- PushXBus on the machine's own platform. -/
def execPushXBus (addr : Word) (s : State) : Result :=
  execPushXBusOn Config.platform addr s

/-- LoadBusAS: `x[A] <- MemRead(x[S], 1)` (R132). -/
def execLoadBusASOn (p : Platform) (s : State) : Result :=
  loadReg p .a .throughS s

/-- LoadBusAS on the machine's own platform. -/
def execLoadBusAS (s : State) : Result :=
  execLoadBusASOn Config.platform s

/-- LoadBusBS: `x[B] <- MemRead(x[S], 1)` (R133). -/
def execLoadBusBSOn (p : Platform) (s : State) : Result :=
  loadReg p .b .throughS s

/-- LoadBusBS on the machine's own platform. -/
def execLoadBusBS (s : State) : Result :=
  execLoadBusBSOn Config.platform s

/-- LoadBusXS: `x[X] <- MemRead(x[S], 1)`, a memory-indirect jump (R134). -/
def execLoadBusXSOn (p : Platform) (s : State) : Result :=
  loadReg p .x .throughS s

/-- LoadBusXS on the machine's own platform. -/
def execLoadBusXS (s : State) : Result :=
  execLoadBusXSOn Config.platform s

/-- PushABusS: `MemWrite(x[S], 1, x[A])` (R135). -/
def execPushABusSOn (p : Platform) (s : State) : Result :=
  storeReg p .a .throughS s

/-- PushABusS on the machine's own platform. -/
def execPushABusS (s : State) : Result :=
  execPushABusSOn Config.platform s

/-- PushBBusS: `MemWrite(x[S], 1, x[B])` (R136). -/
def execPushBBusSOn (p : Platform) (s : State) : Result :=
  storeReg p .b .throughS s

/-- PushBBusS on the machine's own platform. -/
def execPushBBusS (s : State) : Result :=
  execPushBBusSOn Config.platform s

/-- PushXBusS: `MemWrite(x[S], 1, x[X])`, X being the position of the next instruction (R137). -/
def execPushXBusSOn (p : Platform) (s : State) : Result :=
  storeReg p .x .throughS s

/-- PushXBusS on the machine's own platform. -/
def execPushXBusS (s : State) : Result :=
  execPushXBusSOn Config.platform s

end Sys2Proof.Machine
end

