-- ==== Sys2Proof/Machine/CopySwap.lean ====
section
/-! DEFINITION. The execute steps of the register copies and swaps (spec/42_register_copy_swap.md R115): `CopyPQ` copies P
into Q, `SwapPQ` exchanges P and Q; nothing else changes and nothing is raised. -/

namespace Sys2Proof.Machine

/-- CopyAB: `x[B] <- x[A]` (R100). -/
def execCopyAB (s : State) : Result :=
  copyReg .a .b s

/-- CopyBA: `x[A] <- x[B]` (R101). -/
def execCopyBA (s : State) : Result :=
  copyReg .b .a s

/-- SwapAB: A and B exchanged (R102). -/
def execSwapAB (s : State) : Result :=
  swapRegs .a .b s

/-- CopyAX: `x[X] <- x[A]`, a jump (R103). -/
def execCopyAX (s : State) : Result :=
  copyReg .a .x s

/-- CopyBX: `x[X] <- x[B]`, a jump (R104). -/
def execCopyBX (s : State) : Result :=
  copyReg .b .x s

/-- CopyXA: `x[A] <- x[X]`, X being the position of the next instruction (R105). -/
def execCopyXA (s : State) : Result :=
  copyReg .x .a s

/-- CopyXB: `x[B] <- x[X]`, X being the position of the next instruction (R106). -/
def execCopyXB (s : State) : Result :=
  copyReg .x .b s

/-- CopyAS: `x[S] <- x[A]` (R107). -/
def execCopyAS (s : State) : Result :=
  copyReg .a .s s

/-- CopyBS: `x[S] <- x[B]` (R108). -/
def execCopyBS (s : State) : Result :=
  copyReg .b .s s

/-- CopyXS: `x[S] <- x[X]`, X being the position of the next instruction (R109). -/
def execCopyXS (s : State) : Result :=
  copyReg .x .s s

/-- CopySA: `x[A] <- x[S]` (R110). -/
def execCopySA (s : State) : Result :=
  copyReg .s .a s

/-- CopySB: `x[B] <- x[S]` (R111). -/
def execCopySB (s : State) : Result :=
  copyReg .s .b s

/-- CopySX: `x[X] <- x[S]`, a jump (R112). -/
def execCopySX (s : State) : Result :=
  copyReg .s .x s

/-- SwapAS: A and S exchanged (R113). -/
def execSwapAS (s : State) : Result :=
  swapRegs .a .s s

/-- SwapBS: B and S exchanged (R114). -/
def execSwapBS (s : State) : Result :=
  swapRegs .b .s s

end Sys2Proof.Machine
end

