-- ==== Sys2Proof/Machine/LoadImmediate.lean ====
section
/-! DEFINITION. The execute steps of the load-immediate instructions (spec/43_load_immediate.md): the field is the value
itself, no memory is read. -/

namespace Sys2Proof.Machine

/-- LoadA: `x[A] <- imm` (R120). -/
def execLoadA (imm : Word) (s : State) : Result :=
  loadLiteral .a imm s

/-- LoadB: `x[B] <- imm` (R121). -/
def execLoadB (imm : Word) (s : State) : Result :=
  loadLiteral .b imm s

/-- LoadX: `x[X] <- imm`, an absolute jump (R122). -/
def execLoadX (imm : Word) (s : State) : Result :=
  loadLiteral .x imm s

end Sys2Proof.Machine
end

