-- ==== Sys2Proof/Machine/NoOp.lean ====
section
/-! DEFINITION. The execute step of NoOp (spec/40_tick_cycle.md R82). -/

namespace Sys2Proof.Machine

/-- NoOp: nothing; only the tick's own advance of X happens (R82). -/
def execNoOp (s : State) : Result :=
  .next s

end Sys2Proof.Machine
end

