-- ==== Sys2Proof/Machine/Skip.lean ====
section
/-! DEFINITION. The execute steps of the compare-and-skip instructions (spec/45_skip_compare.md R140): A on the left, B on
the right, unsigned; only X may change and nothing is raised. -/

namespace Sys2Proof.Machine

/-- SkipEq: skip where A = B (R141). -/
def execSkipEq (s : State) : Result :=
  skipWhen .eq s

/-- SkipGrEq: skip where A >= B (R142). -/
def execSkipGrEq (s : State) : Result :=
  skipWhen .grEq s

/-- SkipGr: skip where A > B (R143). -/
def execSkipGr (s : State) : Result :=
  skipWhen .gr s

/-- SkipLe: skip where A < B, strictly (R144). -/
def execSkipLe (s : State) : Result :=
  skipWhen .le s

/-- SkipLeEq: skip where A <= B (R145). -/
def execSkipLeEq (s : State) : Result :=
  skipWhen .leEq s

end Sys2Proof.Machine
end

