-- ==== Sys2Proof/Machine/Dispatch.lean ====
section
/-! DEFINITION. The execute step of a tick: one arm per instruction (spec/40_tick_cycle.md R85). -/

namespace Sys2Proof.Machine

def exec (i : Instr) (s : State) : Host.Outcome State Fault Refusal :=
  match i with
  | .noOp => Sys2Proof.Machine.execNoOp s
  | .loadBusA addr => Sys2Proof.Machine.execLoadBusA addr s
  | .loadBusB addr => Sys2Proof.Machine.execLoadBusB addr s
  | .add => Sys2Proof.Machine.execAdd s
  | .subtract => Sys2Proof.Machine.execSubtract s
  | .multiply => Sys2Proof.Machine.execMultiply s
  | .divide => Sys2Proof.Machine.execDivide s
  | .copyAB => Sys2Proof.Machine.execCopyAB s
  | .copyBA => Sys2Proof.Machine.execCopyBA s
  | .swapAB => Sys2Proof.Machine.execSwapAB s
  | .pushABus addr => Sys2Proof.Machine.execPushABus addr s
  | .pushBBus addr => Sys2Proof.Machine.execPushBBus addr s
  | .loadA imm => Sys2Proof.Machine.execLoadA imm s
  | .loadB imm => Sys2Proof.Machine.execLoadB imm s
  | .loadBusX addr => Sys2Proof.Machine.execLoadBusX addr s
  | .copyAX => Sys2Proof.Machine.execCopyAX s
  | .copyBX => Sys2Proof.Machine.execCopyBX s
  | .pushXBus addr => Sys2Proof.Machine.execPushXBus addr s
  | .loadX imm => Sys2Proof.Machine.execLoadX imm s
  | .copyXA => Sys2Proof.Machine.execCopyXA s
  | .copyXB => Sys2Proof.Machine.execCopyXB s
  | .loadBusAS => Sys2Proof.Machine.execLoadBusAS s
  | .loadBusBS => Sys2Proof.Machine.execLoadBusBS s
  | .copyAS => Sys2Proof.Machine.execCopyAS s
  | .copyBS => Sys2Proof.Machine.execCopyBS s
  | .copyXS => Sys2Proof.Machine.execCopyXS s
  | .copySA => Sys2Proof.Machine.execCopySA s
  | .copySB => Sys2Proof.Machine.execCopySB s
  | .copySX => Sys2Proof.Machine.execCopySX s
  | .swapAS => Sys2Proof.Machine.execSwapAS s
  | .swapBS => Sys2Proof.Machine.execSwapBS s
  | .pushABusS => Sys2Proof.Machine.execPushABusS s
  | .pushBBusS => Sys2Proof.Machine.execPushBBusS s
  | .loadBusXS => Sys2Proof.Machine.execLoadBusXS s
  | .pushXBusS => Sys2Proof.Machine.execPushXBusS s
  | .skipEq => Sys2Proof.Machine.execSkipEq s
  | .skipGrEq => Sys2Proof.Machine.execSkipGrEq s
  | .skipGr => Sys2Proof.Machine.execSkipGr s
  | .skipLe => Sys2Proof.Machine.execSkipLe s
  | .skipLeEq => Sys2Proof.Machine.execSkipLeEq s

end Sys2Proof.Machine
end

