-- ==== Sys2Proof/Machine/Fetch.lean ====
section
/-! DEFINITION. Instruction fetch (spec/20_memory.md R54, spec/30_encoding.md R67): it reads `program` by position,
not through the router, and adds the position to what the decoder rejects. Beside it, the advance of X, and the
placing of an instruction where the next tick fetches. -/

namespace Sys2Proof.Machine

/-- The bytes the decoder may read for an instruction at position `pc`: at most nine, and only those that lie in
positions 0 to 65535; none where `pc` is past the array (R69, R75). X is never reduced modulo 65536 (R15, D16). -/
def fetchWindow (program : ByteMemory) (pc : Word) : List Byte :=
  (List.range (min longestInstr (Config.progBytes - pc.toNat))).map fun n => Memory.read program (pc.toNat + n)

/-- `decode(program, pc)` of R67: the typed instruction and its length, or the error with the position of the opcode
byte (R68, R69, D10). -/
def decodeAt (program : ByteMemory) (pc : Word) : Except Fault (Instr × Nat) :=
  match decodeBytes (fetchWindow program pc) with
  | .ok r => .ok r
  | .error .outOfInstructions => .error (.outOfInstructions pc)
  | .error (.illegalInstruction b) => .error (.illegalInstruction b pc)

/-- The working state of a tick whose instruction decoded: X advanced by the instruction's whole length before it
executes (R80, R15, D3, D19), and the tick counted (log 2). -/
def State.advance (s : State) (len : Nat) : State :=
  { s with regX := s.regX + BitVec.ofNat 64 len, ticks := s.ticks + 1 }

/-- Where an instruction is placed so that the next tick fetches it: at X, where nine bytes fit there, and else at
position 0 (log 6). -/
def State.placePosition (s : State) : Word :=
  if s.regX.toNat + longestInstr ≤ Config.progBytes then s.regX else 0

/-- The state with bytes placed in `program` where the next tick fetches. -/
def State.placeBytes (s : State) (bytes : List Byte) : State :=
  { s with
    regX := s.placePosition
    program := Memory.writeAll s.program s.placePosition.toNat bytes }

/-- `new(program_image, devices)` (R21, R170, R24): registers and `memory` zero, `program` the image, a shorter image
padded with zeros (R173, D15) and bytes past 65536 left out (log 5), `ndev` devices that have not been called yet. -/
def State.new (image : List Byte) (ndev : Nat) : State :=
  { regA := 0, regB := 0, regS := 0, regX := 0
    memory := []
    program := Memory.writeAll [] 0 image
    devices := List.replicate ndev { calls := [] }
    ticks := 0 }

end Sys2Proof.Machine
end

