-- ==== Sys2Proof/Machine/Step.lean ====
section
/-! DEFINITION. The tick as one step (spec/40_tick_cycle.md R80): decode at X, advance X, execute. -/

namespace Sys2Proof.Machine

/-- One tick seen as a step (R80): the next state where it succeeds, the error where it fails. -/
def step (s : State) : Host.Outcome State Fault Refusal :=
  match decodeAt s.program s.regX with
  | .error f => raise f
  | .ok (i, len) => exec i (s.advance len)

/-- The state with the instruction of an opcode-table word stored where `step` fetches its next instruction. -/
def State.withFetchWord (s : State) (nbits w : Nat) : State :=
  s.placeBytes (tableWordBytes nbits w)

end Sys2Proof.Machine
end

