-- ==== Sys2Proof/Machine/DeviceModel.lean ====
section
/-! DEFINITION. The devices of a particular platform, in the form of spec/20_memory.md R56: a state type, an initial
state and three functions. `Platform.ofModels` makes of them a platform for the router, whose devices are known by the
calls they have received; `modelScanLoad` and `modelScanStore` are the loops of R32 and R33 over the devices' states
themselves, which the router's scans are to agree with. -/

namespace Sys2Proof.Machine

/-- A device as R56 gives it. -/
structure DeviceModel (σ : Type) where
  /-- The state the collaborator built it in (R24). -/
  init : σ
  /-- `address_range()`; it changes nothing (R40). -/
  range : σ → Word × Word
  /-- `load(addr)`: the value, and the state after. -/
  load : σ → Word → Word × σ
  /-- `store(addr, value)`: whether it succeeded, and the state after. -/
  store : σ → Word → Word → Bool × σ

/-- The device's state after one more call. -/
def DeviceModel.react {σ : Type} (m : DeviceModel σ) (st : σ) : DeviceCall → σ
  | .load _ addr => (m.load st addr).2
  | .store _ addr v => (m.store st addr v).2

/-- The device's state after the calls it has received, oldest first. -/
def DeviceModel.stateAfter {σ : Type} (m : DeviceModel σ) (calls : List DeviceCall) : σ :=
  calls.foldl m.react m.init

/-- The platform whose device at position k is `models k`. -/
def Platform.ofModels {σ : Type} (models : Nat → DeviceModel σ) : Platform :=
  { range := fun k calls _ => (models k).range ((models k).stateAfter calls)
    loadValue := fun k calls _ addr => ((models k).load ((models k).stateAfter calls) addr).1
    storeOk := fun k calls _ addr v => ((models k).store ((models k).stateAfter calls) addr v).1 }

/-- The states of the devices from position `k` on. -/
def modelStates {σ : Type} (models : Nat → DeviceModel σ) : Nat → List Device → List σ
  | _, [] => []
  | k, d :: ds => (models k).stateAfter d.calls :: modelStates models (k + 1) ds

/-- The loop of R32 over device states from position `k` on. -/
def modelScanLoad {σ : Type} (models : Nat → DeviceModel σ) (addr : Word) :
    Nat → Option Word → List σ → Option Word × List σ
  | _, found, [] => (found, [])
  | k, found, st :: sts =>
    if rangeClaims ((models k).range st) addr then
      let a := (models k).load st addr
      let r := modelScanLoad models addr (k + 1) (some a.1) sts
      (r.1, a.2 :: r.2)
    else
      let r := modelScanLoad models addr (k + 1) found sts
      (r.1, st :: r.2)

/-- The loop of R33 over device states from position `k` on: whether some device claimed the address, which device
failed if one did, and the states after. -/
def modelScanStore {σ : Type} (models : Nat → DeviceModel σ) (addr v : Word) :
    Nat → Bool → List σ → Bool × Option Nat × List σ
  | _, found, [] => (found, none, [])
  | k, found, st :: sts =>
    if rangeClaims ((models k).range st) addr then
      let a := (models k).store st addr v
      if a.1 then
        let r := modelScanStore models addr v (k + 1) true sts
        (r.1, r.2.1, a.2 :: r.2.2)
      else (true, some k, a.2 :: sts)
    else
      let r := modelScanStore models addr v (k + 1) found sts
      (r.1, r.2.1, st :: r.2.2)

end Sys2Proof.Machine
end

