-- ==== Sys2Proof/Machine/Tick.lean ====
section
/-! DEFINITION. The host's operation `tick()` (spec/10_state.md R21): one step that also says in what state a failed
tick leaves the machine, so that the host may tick again (spec/60_exceptions.md R161). -/

namespace Sys2Proof.Machine

/-- What a tick returns to the host (R21, R150). -/
inductive TickResult where
  /-- The tick succeeded. -/
  | ok
  /-- The tick failed with an error. -/
  | error (f : Fault)
  /-- The instruction has no meaning in the model; no tick returns it. -/
  | unmodelled (r : Refusal)
  deriving DecidableEq, Repr

/-- How a tick that began in `s` ends, from what its step answered: the working state is committed where it succeeded,
and else the core is as it was (R80, R156). -/
def State.commit (s : State) : Result → TickResult × State
  | .next t => (.ok, t)
  | .fault f => (.error f, s.afterFault f)
  | .refused r => (.unmodelled r, s)

/-- The host's `tick()` (R21, R80, R156, R161): what it returns, and the machine after it. Unlike `step` it goes on
after an error: the core is as it was, and a later tick re-attempts the same instruction. -/
def tick (s : State) : TickResult × State :=
  s.commit (step s)

end Sys2Proof.Machine
end

