-- ==== Sys2Proof/Machine/OnPlatform.lean ====
section
/-! DEFINITION. The same machine on a platform of devices that is supplied (spec/00_scope.md R5 parameter DEVICES,
spec/20_memory.md R56): the execute step, the step and the tick over any platform. `exec`, `step` and `tick` are these
at `Config.platform`. Only the twelve loads and stores ask a device anything. -/

namespace Sys2Proof.Machine

/-- The execute step (R85) on the platform `p`. -/
def execOn (p : Platform) (i : Instr) (s : State) : Result :=
  match i with
  | .noOp => execNoOp s
  | .loadBusA addr => execLoadBusAOn p addr s
  | .loadBusB addr => execLoadBusBOn p addr s
  | .add => execAdd s
  | .subtract => execSubtract s
  | .multiply => execMultiply s
  | .divide => execDivide s
  | .copyAB => execCopyAB s
  | .copyBA => execCopyBA s
  | .swapAB => execSwapAB s
  | .pushABus addr => execPushABusOn p addr s
  | .pushBBus addr => execPushBBusOn p addr s
  | .loadA imm => execLoadA imm s
  | .loadB imm => execLoadB imm s
  | .loadBusX addr => execLoadBusXOn p addr s
  | .copyAX => execCopyAX s
  | .copyBX => execCopyBX s
  | .pushXBus addr => execPushXBusOn p addr s
  | .loadX imm => execLoadX imm s
  | .copyXA => execCopyXA s
  | .copyXB => execCopyXB s
  | .loadBusAS => execLoadBusASOn p s
  | .loadBusBS => execLoadBusBSOn p s
  | .copyAS => execCopyAS s
  | .copyBS => execCopyBS s
  | .copyXS => execCopyXS s
  | .copySA => execCopySA s
  | .copySB => execCopySB s
  | .copySX => execCopySX s
  | .swapAS => execSwapAS s
  | .swapBS => execSwapBS s
  | .pushABusS => execPushABusSOn p s
  | .pushBBusS => execPushBBusSOn p s
  | .loadBusXS => execLoadBusXSOn p s
  | .pushXBusS => execPushXBusSOn p s
  | .skipEq => execSkipEq s
  | .skipGrEq => execSkipGrEq s
  | .skipGr => execSkipGr s
  | .skipLe => execSkipLe s
  | .skipLeEq => execSkipLeEq s

/-- One tick on the platform `p`, seen as a step (R80). -/
def stepOn (p : Platform) (s : State) : Result :=
  match decodeAt s.program s.regX with
  | .error f => raise f
  | .ok (i, len) => execOn p i (s.advance len)

/-- The host's `tick()` on the platform `p` (R21, R80, R156, R161). -/
def tickOn (p : Platform) (s : State) : TickResult × State :=
  s.commit (stepOn p s)

end Sys2Proof.Machine
end

