-- ==== Sys2Proof/Machine/System.lean ====
section
/-! DEFINITION. The machine constructed with particular devices (spec/00_scope.md R5, spec/10_state.md R21 to R24,
spec/20_memory.md R56): `System.new image devices` takes both parameters of construction, each device with a state type
of its own, and `System.tick` runs a tick in which those devices answer. `System.live` is the devices in their present
states, and the two scans over them are the loops of R32 and R33 as the spec writes them. -/

namespace Sys2Proof.Machine

/-- A device as the collaborator supplies it (R5, R56). -/
structure AttachedDevice where
  /-- Its state type. -/
  σ : Type
  /-- Its initial state and its three operations. -/
  model : DeviceModel σ

/-- The platform whose device at position k is the k-th of the list. Past the list there is no device: such a position
reports an inverted range, which claims nothing (R41), so its other two answers are never asked for. -/
def Platform.ofDevices (attached : List AttachedDevice) : Platform :=
  { range := fun k calls _ =>
      match attached[k]? with
      | some d => d.model.range (d.model.stateAfter calls)
      | none => (1, 0)
    loadValue := fun k calls _ addr =>
      match attached[k]? with
      | some d => (d.model.load (d.model.stateAfter calls) addr).1
      | none => 0
    storeOk := fun k calls _ addr v =>
      match attached[k]? with
      | some d => (d.model.store (d.model.stateAfter calls) addr v).1
      | none => false }

/-- A machine with the devices it was constructed with, which it owns for its lifetime (R5). -/
structure System where
  /-- DEVICES, position 0 first (R5, R22). -/
  attached : List AttachedDevice
  /-- The state of the machine. -/
  core : State

/-- `new(program_image, devices)` (R21, R170). -/
def System.new (image : List Byte) (attached : List AttachedDevice) : System :=
  { attached := attached, core := State.new image attached.length }

/-- `tick()` (R21, R80): what it returns, and the machine after it; the device list is never changed. -/
def System.tick (m : System) : TickResult × System :=
  let r := tickOn (Platform.ofDevices m.attached) m.core
  (r.1, { m with core := r.2 })

/-- The machine after `n` calls of `tick` by the host, errors included (R161). -/
def System.afterTicks : Nat → System → System
  | 0, m => m
  | n + 1, m => System.afterTicks n m.tick.2

/-- A device in its present state. -/
structure LiveDevice where
  /-- Its state type. -/
  σ : Type
  /-- Its behaviour. -/
  model : DeviceModel σ
  /-- Its present state. -/
  state : σ

/-- An attached device after the calls it has received. -/
def AttachedDevice.live (d : AttachedDevice) (calls : List DeviceCall) : LiveDevice :=
  { σ := d.σ, model := d.model, state := d.model.stateAfter calls }

/-- The devices of a machine in their present states, position 0 first. -/
def System.live (m : System) : List LiveDevice :=
  List.zipWith (fun a d => a.live d.calls) m.attached m.core.devices

/-- Whether a live device claims an address (R41). -/
def LiveDevice.claims (d : LiveDevice) (addr : Word) : Bool :=
  rangeClaims (d.model.range d.state) addr

/-- A live device after it has been read. -/
def LiveDevice.afterLoad (d : LiveDevice) (addr : Word) : LiveDevice :=
  { d with state := (d.model.load d.state addr).2 }

/-- A live device after it has been stored to. -/
def LiveDevice.afterStore (d : LiveDevice) (addr v : Word) : LiveDevice :=
  { d with state := (d.model.store d.state addr v).2 }

/-- The loop of R32 over live devices, `found` being the value of the last claiming device before them. -/
def liveScanLoad (addr : Word) : Option Word → List LiveDevice → Option Word × List LiveDevice
  | found, [] => (found, [])
  | found, d :: ds =>
    if d.claims addr then
      let r := liveScanLoad addr (some (d.model.load d.state addr).1) ds
      (r.1, d.afterLoad addr :: r.2)
    else
      let r := liveScanLoad addr found ds
      (r.1, d :: r.2)

/-- How the loop of R33 over live devices ends. -/
inductive LiveStore where
  /-- No device claimed the address. -/
  | unclaimed
  /-- Every claiming device took the store. -/
  | done
  /-- The device at this position failed. -/
  | failed (position : Nat)
  deriving DecidableEq, Repr

/-- The loop of R33 over live devices from position `k` on, `found` saying whether a device before them claimed the
address: how it ends, and the devices after it. -/
def liveScanStore (addr v : Word) : Nat → Bool → List LiveDevice → LiveStore × List LiveDevice
  | _, found, [] => (if found then .done else .unclaimed, [])
  | k, found, d :: ds =>
    if d.claims addr then
      if (d.model.store d.state addr v).1 then
        let r := liveScanStore addr v (k + 1) true ds
        (r.1, d.afterStore addr v :: r.2)
      else (.failed k, d.afterStore addr v :: ds)
    else
      let r := liveScanStore addr v (k + 1) found ds
      (r.1, d :: r.2)

end Sys2Proof.Machine
end

