-- ==== Sys2Proof/Safety.lean ====
section
/-! DEFINITION. The terms claims use: the canonical form of a state, frames, which instruction is of which form, and
what the end of a run is (spec/70_reset_and_hazards.md R184). -/

namespace Sys2Proof.Machine

/-- Both arrays are in canonical form: every index in 0 to 65535 (R25 a), none listed twice or with the unlisted
value. -/
def State.wf (s : State) : Bool :=
  Memory.wf s.memory && Memory.wf s.program

/-- Every register but the listed ones is as before. -/
def SameRegsBut (written : List Reg) (s t : State) : Prop :=
  ∀ r, r ∉ written → t.reg r = s.reg r

/-- Every word of `memory` is as before. -/
def SameMemory (s t : State) : Prop :=
  ∀ i, Memory.read t.memory i = Memory.read s.memory i

/-- Every byte of `program` is as before. -/
def SameProgram (s t : State) : Prop :=
  ∀ p, Memory.read t.program p = Memory.read s.program p

/-- The devices have received no call, and no tick has been counted. -/
def SameDevices (s t : State) : Prop :=
  t.devices = s.devices ∧ t.ticks = s.ticks

/-- Nothing but the listed registers changed. -/
def OnlyRegs (written : List Reg) (s t : State) : Prop :=
  SameRegsBut written s t ∧ SameMemory s t ∧ SameProgram s t ∧ SameDevices s t

/-- A, B, S, X, `memory` and `program`, the core state of R156, are as before. -/
def SameCore (s t : State) : Prop :=
  SameRegsBut [] s t ∧ SameMemory s t ∧ SameProgram s t

/-- The twelve copies with their source and destination (R115, R100 to R112). -/
def copyForms : List (Instr × Reg × Reg) :=
  [(.copyAB, .a, .b), (.copyBA, .b, .a), (.copyAX, .a, .x), (.copyBX, .b, .x),
   (.copyXA, .x, .a), (.copyXB, .x, .b), (.copyAS, .a, .s), (.copyBS, .b, .s),
   (.copyXS, .x, .s), (.copySA, .s, .a), (.copySB, .s, .b), (.copySX, .s, .x)]

/-- The three swaps with their registers (R115, R102, R113, R114). -/
def swapForms : List (Instr × Reg × Reg) :=
  [(.swapAB, .a, .b), (.swapAS, .a, .s), (.swapBS, .b, .s)]

/-- The six loads with their destination and addressing mode (R126 to R128, R132 to R134). -/
def loadForms (addr : Word) : List (Instr × Reg × AddrMode) :=
  [(.loadBusA addr, .a, .absolute addr), (.loadBusB addr, .b, .absolute addr), (.loadBusX addr, .x, .absolute addr),
   (.loadBusAS, .a, .throughS), (.loadBusBS, .b, .throughS), (.loadBusXS, .x, .throughS)]

/-- The six stores with the register stored and the addressing mode (R129 to R131, R135 to R137). -/
def storeForms (addr : Word) : List (Instr × Reg × AddrMode) :=
  [(.pushABus addr, .a, .absolute addr), (.pushBBus addr, .b, .absolute addr), (.pushXBus addr, .x, .absolute addr),
   (.pushABusS, .a, .throughS), (.pushBBusS, .b, .throughS), (.pushXBusS, .x, .throughS)]

/-- The five Skips, each with its relation between A and B as natural numbers (R141 to R145). -/
def skipForms : List (Instr × (Nat → Nat → Prop)) :=
  [(.skipEq, fun a b => a = b), (.skipGrEq, fun a b => a ≥ b), (.skipGr, fun a b => a > b),
   (.skipLe, fun a b => a < b), (.skipLeEq, fun a b => a ≤ b)]

/-- The registers an instruction may write beyond the tick's advance of X: the "w" entries of the table of R26. -/
def writtenRegs : Instr → List Reg
  | .noOp => []
  | .loadBusA _ => [.a]
  | .loadBusB _ => [.b]
  | .add => [.a]
  | .subtract => [.a]
  | .multiply => [.a]
  | .divide => [.a]
  | .copyAB => [.b]
  | .copyBA => [.a]
  | .swapAB => [.a, .b]
  | .pushABus _ => []
  | .pushBBus _ => []
  | .loadA _ => [.a]
  | .loadB _ => [.b]
  | .loadBusX _ => [.x]
  | .copyAX => [.x]
  | .copyBX => [.x]
  | .pushXBus _ => []
  | .loadX _ => [.x]
  | .copyXA => [.a]
  | .copyXB => [.b]
  | .loadBusAS => [.a]
  | .loadBusBS => [.b]
  | .copyAS => [.s]
  | .copyBS => [.s]
  | .copyXS => [.s]
  | .copySA => [.a]
  | .copySB => [.b]
  | .copySX => [.x]
  | .swapAS => [.a, .s]
  | .swapBS => [.b, .s]
  | .pushABusS => []
  | .pushBBusS => []
  | .loadBusXS => [.x]
  | .pushXBusS => []
  | .skipEq => [.x]
  | .skipGrEq => [.x]
  | .skipGr => [.x]
  | .skipLe => [.x]
  | .skipLeEq => [.x]

/-- The state after `n` calls of `tick` by the host, errors included (R161). -/
def State.afterTicks : Nat → State → State
  | 0, s => s
  | n + 1, s => State.afterTicks n (tick s).2

/-- `n` successful ticks lead from `s` to `t` (R184). -/
def Ticks : Nat → State → State → Prop
  | 0, s, t => t = s
  | n + 1, s, t => ∃ u, step s = .next u ∧ Ticks n u t

/-- The run from `s` ends normally in `t`: after `n` successful ticks the next one returns OutOfInstructions (R184). -/
def EndsNormally (s : State) (n : Nat) (t : State) : Prop :=
  Ticks n s t ∧ ∃ p, step t = .fault (.outOfInstructions p)

/-- The run from `s` ends with a fault in `t`: after `n` successful ticks the next one returns another error (R184). -/
def EndsWithFault (s : State) (n : Nat) (t : State) (f : Fault) : Prop :=
  Ticks n s t ∧ step t = .fault f ∧ ∀ p, f ≠ .outOfInstructions p

/-- A run is safe when it does not end with a fault. -/
def SafeRun (s : State) : Prop :=
  ∀ n t f, ¬ EndsWithFault s n t f

end Sys2Proof.Machine
end

