-- ==== Sys2Proof/Certificates/Slice0/Obligations.lean ====
section
/-! DEFINITION. The statements for the provers, one a definition. A docstring says what the statement states; where it
rests on a decision the spec marks as its own (D<n>) or on a choice of the model, it names the log entry. -/

open Sys2Proof Sys2Proof.Machine

/-- For every image of 65536 bytes and every number of devices, the constructed machine has A = B = S = X = 0, every
one of the 65536 words of memory 0, every byte of program the byte of the image at that position, and a device list of
the given length. (Rule R24, R171.) -/
def Obligations.ConstructionGivesResetValues : Prop :=
  ∀ (image : List Byte) (ndev : Nat), image.length = 65536 →
    (∀ r, (State.new image ndev).reg r = 0) ∧
    (∀ i, i < 65536 → Memory.read (State.new image ndev).memory i = 0) ∧
    (∀ p (h : p < image.length), Memory.read (State.new image ndev).program p = image[p]) ∧
    (State.new image ndev).devices.length = ndev

/-- Constructing from n zero bytes, for every n, and no device gives State.reset. That the reset state has this image
and no device is the model's choice (log 3), not a rule of the spec, which leaves both to the constructor; that a
short image is padded with zeros is the spec's decision D15 (log 15). (From 70_reset_and_hazards.md section 1; log 3.)
-/
def Obligations.ResetIsConstructionFromZeroImage : Prop :=
  ∀ n : Nat, State.new (List.replicate n 0) 0 = State.reset

/-- For every image of 65536 bytes that begins with the encoding of an instruction i, the first step of the
constructed machine is exec of i on the constructed state with X advanced from 0 by the length of i and one tick
counted. That X is advanced by the whole length before the execute step is the spec's decisions D3 and D19 (log 10),
the counter is the model's own (log 2), and the opcode bytes but the source's five are decision D1 (log 9). (From
70_reset_and_hazards.md section 1; 40_tick_cycle.md section 1; 92_eei_decisions.md D3; 92_eei_decisions.md D19.) -/
def Obligations.FirstTickRunsInstructionAtPositionZero : Prop :=
  ∀ (image : List Byte) (ndev : Nat) (i : Instr), image.length = 65536 →
    image.take i.length = encode i →
    step (State.new image ndev) = exec i ((State.new image ndev).advance i.length)

/-- The byte 0 decodes to NoOp of length 1; 12 and eight operand bytes 0,0,0,0,0,0,0,5 decode to LoadA 5 of length 9;
10 and eight zero bytes to PushABus 0 of length 9; 3 to Add and 6 to Divide, of length 1. Each of the five stands at
the position in the opcode map that its opcode byte numbers: NoOp 1st, Add 4th, Divide 7th, PushABus 11th, LoadA 13th.
(Rule R64.) -/
def Obligations.StatedOpcodeBytesDecode : Prop :=
  decodeBytes [0] = .ok (.noOp, 1) ∧
  decodeBytes [12, 0, 0, 0, 0, 0, 0, 0, 5] = .ok (.loadA 5, 9) ∧
  decodeBytes [10, 0, 0, 0, 0, 0, 0, 0, 0] = .ok (.pushABus 0, 9) ∧
  decodeBytes [3] = .ok (.add, 1) ∧
  decodeBytes [6] = .ok (.divide, 1) ∧
  opcodeMap[0]? = some (.op .noOp) ∧ opcodeMap[3]? = some (.op .add) ∧ opcodeMap[6]? = some (.op .divide) ∧
  opcodeMap[10]? = some (.opi .pushABus) ∧ opcodeMap[12]? = some (.opi .loadA)

/-- Written out from the spec's encodings: 04 is Subtract, 17 hex is CopyAS, 1D hex is SwapAS, 0D 01..08 hex is LoadB
0x0102030405060708, 12 hex with 24 hex is LoadX 36, 01 with 00..01 00 00 is LoadBusA 0x10000, 22 hex is PushXBusS, 23
hex is SkipEq, 27 hex is SkipLeEq, and 28 hex is rejected. The bytes other than the source's five are the spec's
decisions D1 and D2 (log 9). (From 30_encoding.md section 3; 92_eei_decisions.md D1.) -/
def Obligations.WordsOfEachFamilyDecode : Prop :=
  decodeBytes [0x04] = .ok (.subtract, 1) ∧
  decodeBytes [0x17] = .ok (.copyAS, 1) ∧
  decodeBytes [0x1D] = .ok (.swapAS, 1) ∧
  decodeBytes [0x0D, 1, 2, 3, 4, 5, 6, 7, 8] = .ok (.loadB 0x0102030405060708, 9) ∧
  decodeBytes [0x12, 0, 0, 0, 0, 0, 0, 0, 0x24] = .ok (.loadX 36, 9) ∧
  decodeBytes [0x01, 0, 0, 0, 0, 0, 1, 0, 0] = .ok (.loadBusA 0x10000, 9) ∧
  decodeBytes [0x22] = .ok (.pushXBusS, 1) ∧
  decodeBytes [0x23] = .ok (.skipEq, 1) ∧
  decodeBytes [0x27] = .ok (.skipLeEq, 1) ∧
  decodeBytes [0x28] = .error (.illegalInstruction 0x28)

/-- For every instruction i, with its field at any of the 2^64 values, and every list of bytes after it, decodeBytes
of encode i followed by those bytes is i and the length of its encoding. The opcode bytes are the spec's decision D1
(log 9). (From 30_encoding.md section 6.) -/
def Obligations.DecodeOfEncodeIsIdentity : Prop :=
  ∀ (i : Instr) (rest : List Byte), decodeBytes (encode i ++ rest) = .ok (i, (encode i).length)

/-- Whenever decodeBytes answers an instruction and a length, the length is that instruction's length and the bytes up
to it are its encoding. (From 30_encoding.md sections 3 and 6.) -/
def Obligations.EncodeOfDecodeIsIdentity : Prop :=
  ∀ (bytes : List Byte) (i : Instr) (n : Nat), decodeBytes bytes = .ok (i, n) →
    n = i.length ∧ bytes.take n = encode i

/-- For every program, instruction i and position pc with the whole encoding of i inside positions 0 to 65535, if the
bytes from pc on are the encoding of i, the fetch at pc gives i and its length. (From 30_encoding.md section 6.) -/
def Obligations.PlacedEncodingDecodesAtItsPosition : Prop :=
  ∀ (program : ByteMemory) (pc : Word) (i : Instr), i.fitsAt pc.toNat = true →
    (∀ n (h : n < (encode i).length), Memory.read program (pc.toNat + n) = (encode i)[n]) →
    decodeAt program pc = .ok (i, i.length)

/-- At a position pc up to 65527 whose byte is one of the nine OPI opcodes 1, 2, 10, 11, 12, 13, 14, 17, 18, the fetch
gives an instruction of length 9 whose immediate, as a number, is prog[pc+1]*2^56 + ... + prog[pc+8]. Which opcodes
carry an immediate is the spec's decision D4 (log 9). (From 30_encoding.md section 2.) -/
def Obligations.ImmediateIsBigEndian : Prop :=
  ∀ (program : ByteMemory) (pc : Word), pc.toNat ≤ 65527 →
    (Memory.read program pc.toNat).toNat ∈ [1, 2, 10, 11, 12, 13, 14, 17, 18] →
    ∃ i imm, decodeAt program pc = .ok (i, 9) ∧ i.immediate = some imm ∧
      imm.toNat =
        (Memory.read program (pc.toNat + 1)).toNat * 2 ^ 56 + (Memory.read program (pc.toNat + 2)).toNat * 2 ^ 48 +
        (Memory.read program (pc.toNat + 3)).toNat * 2 ^ 40 + (Memory.read program (pc.toNat + 4)).toNat * 2 ^ 32 +
        (Memory.read program (pc.toNat + 5)).toNat * 2 ^ 24 + (Memory.read program (pc.toNat + 6)).toNat * 2 ^ 16 +
        (Memory.read program (pc.toNat + 7)).toNat * 2 ^ 8 + (Memory.read program (pc.toNat + 8)).toNat

/-- Whenever a list of bytes with first byte b decodes, its length is ilen b; and ilen is 9 on 1, 2, 10, 11, 12, 13,
14, 17, 18 and 1 on every other byte, the unrecognised ones included, which is the spec's decision D8 (log 12). (From
30_encoding.md section 3; 92_eei_decisions.md D8.) -/
def Obligations.LengthOfDecodedIsIlenOfOpcode : Prop :=
  (∀ (b : Byte) (operand : List Byte) (i : Instr) (n : Nat), decodeBytes (b :: operand) = .ok (i, n) → n = ilen b) ∧
  ∀ b : Byte, ilen b = if b.toNat ∈ [1, 2, 10, 11, 12, 13, 14, 17, 18] then 9 else 1

/-- The fetch at pc raises an OutOfInstructions error exactly when pc > 65535, or pc >= 65528 and the byte at pc is
one of the nine OPI opcodes; the position carried is then pc. That the opcode's position is carried is the spec's
decision D10 (log 13). (From 30_encoding.md section 5; 92_eei_decisions.md D10.) -/
def Obligations.OutOfInstructionsExactlyPastTheEnd : Prop :=
  ∀ (program : ByteMemory) (pc pos : Word), decodeAt program pc = .error (.outOfInstructions pos) ↔
    pos = pc ∧ (65535 < pc.toNat ∨
      (65528 ≤ pc.toNat ∧ pc.toNat ≤ 65535 ∧
        (Memory.read program pc.toNat).toNat ∈ [1, 2, 10, 11, 12, 13, 14, 17, 18]))

/-- The fetch at pc raises an IllegalInstruction error exactly when pc <= 65535 and the byte at pc is 40 or more; it
carries that byte and pc. The recognised set 0 to 39 is the spec's decision D2 (log 9). (From 30_encoding.md section
5; 92_eei_decisions.md D2.) -/
def Obligations.IllegalInstructionExactlyOnBytesFrom40 : Prop :=
  ∀ (program : ByteMemory) (pc : Word) (b : Byte) (pos : Word),
    decodeAt program pc = .error (.illegalInstruction b pos) ↔
      pos = pc ∧ pc.toNat ≤ 65535 ∧ b = Memory.read program pc.toNat ∧ 40 ≤ b.toNat

/-- Two programs that agree on the bytes of positions pc to pc + 8 that lie inside 0 to 65535 decode alike at pc,
errors included. (Rule R75.) -/
def Obligations.DecodeReadsOnlyNineBytes : Prop :=
  ∀ (program other : ByteMemory) (pc : Word),
    (∀ n, n < 9 → pc.toNat + n ≤ 65535 → Memory.read other (pc.toNat + n) = Memory.read program (pc.toNat + n)) →
    decodeAt other pc = decodeAt program pc

/-- If the fetch at X gives instruction i of length len, the step is exec of i on the state whose X is X + len and
whose counter of ticks is one more, every other field being as before. The order of advance and execute is the spec's
decisions D3 and D19 (log 10); the counter is the model's own (log 2). (From 40_tick_cycle.md section 1.) -/
def Obligations.StepRunsTheDecodedInstruction : Prop :=
  ∀ (s : State) (i : Instr) (len : Nat), decodeAt s.program s.regX = .ok (i, len) →
    step s = exec i { s with regX := s.regX + BitVec.ofNat 64 len, ticks := s.ticks + 1 }

/-- For every state, either the fetch gives an instruction whose execute step on the advanced state answers a next
state, and that is the tick's result and state; or the tick returns an error, and it is the step's fault. No tick is
refused. The error is of one of the six kinds, which are all that Fault has, and the device answers are unconstrained.
(Rule R162.) -/
def Obligations.TickSucceedsOrReturnsOneError : Prop :=
  ∀ s : State,
    (∃ i len t, decodeAt s.program s.regX = .ok (i, len) ∧ exec i (s.advance len) = .next t ∧
      step s = .next t ∧ tick s = (.ok, t)) ∨
    (∃ f, step s = .fault f ∧ (tick s).1 = .error f)

/-- If exec of an instruction raises an error, then the instruction is Divide, B is 0 and the error is DivideByZero;
or it is one of the six loads LoadBusA/B/X, LoadBusAS/BS/XS and the error is IllegalAddressLoad of its effective
address, which is 0x20000 or more; or it is one of the six stores PushABus/BBus/XBus, PushABusS/BBusS/XBusS, its
effective address is 0x20000 or more, and the error is IllegalAddressStore of it or DeviceError of it, with a position
inside the device list and, as the devices left, a list of the same length as the state's. That a device's store may
fail and its load may not is the spec's decision D13 (log 14); that DeviceError carries the devices left is the
model's choice (log 4). (From 60_exceptions.md sections 1 and 2; 92_eei_decisions.md D13; log 4.) -/
def Obligations.ErrorsBelongToTheirInstructions : Prop :=
  ∀ (i : Instr) (s : State) (f : Fault), exec i s = .fault f →
    (i = .divide ∧ s.regB = 0 ∧ f = .divideByZero) ∨
    (∃ addr r mode, (i, r, mode) ∈ loadForms addr ∧ 0x20000 ≤ (s.effAddr mode).toNat ∧
      f = .illegalAddressLoad (s.effAddr mode)) ∨
    (∃ addr r mode, (i, r, mode) ∈ storeForms addr ∧ 0x20000 ≤ (s.effAddr mode).toNat ∧
      (f = .illegalAddressStore (s.effAddr mode) ∨
        ∃ k left, f = .deviceError (s.effAddr mode) k left ∧ k < s.devices.length ∧ left.length = s.devices.length))

/-- If a tick returns an error, every register (X included), every word of memory and every byte of program is as
before it, the device list keeps its length, and for every error but DeviceError the devices have received no call.
That X is not advanced is the spec's decision D9 (log 13). (From 60_exceptions.md section 3; 92_eei_decisions.md D9.)
-/
def Obligations.FailedTickLeavesTheCore : Prop :=
  ∀ (s t : State) (f : Fault), tick s = (.error f, t) →
    SameCore s t ∧ t.devices.length = s.devices.length ∧
    ((∀ addr k left, f ≠ .deviceError addr k left) → t.devices = s.devices)

/-- If a tick returns OutOfInstructions, IllegalInstruction or DivideByZero, then after any number of further ticks
the next tick returns the same error with the same fields. It rests on the spec's decisions D9 and D20 (log 13). (From
60_exceptions.md sections 1 and 3; 92_eei_decisions.md D20.) -/
def Obligations.CoreErrorRepeatsForever : Prop :=
  ∀ (s t : State) (f : Fault), tick s = (.error f, t) →
    ((∃ pos, f = .outOfInstructions pos) ∨ (∃ b pos, f = .illegalInstruction b pos) ∨ f = .divideByZero) →
    ∀ n, (tick (t.afterTicks n)).1 = .error f

/-- For every state whose memory and program are in canonical form (indices rising strictly inside 0 to 65535, no
entry equal to the unlisted value), if the step answers a next state, that state's memory and program are in canonical
form: the two arrays keep their size and equal contents are equal data, whatever the instruction and the devices do.
The form is the model's representation (log 7). (From 10_state.md sections 4 and 8; log 7.) -/
def Obligations.StepKeepsCanonicalState : Prop :=
  ∀ s t : State, s.wf = true → step s = .next t → t.wf = true

/-- For every image, of any length, and every number of devices the constructed state's memory and program are in
canonical form. The form is the model's representation (log 7). That the bytes of a list past the 65536th are left out
is the model's choice (log 5), that a shorter one is padded with zeros the spec's decision D15 (log 15). (From
10_state.md section 7; 92_eei_decisions.md D15; log 5; log 7.) -/
def Obligations.ConstructionIsCanonical : Prop :=
  ∀ (image : List Byte) (ndev : Nat), (State.new image ndev).wf = true

/-- State.reset has memory and program in canonical form. The form is the model's representation (log 7). (From
10_state.md section 7; log 7.) -/
def Obligations.ResetIsCanonical : Prop :=
  State.reset.wf = true

/-- If the step answers a next state, its device list has the same length, and the device at each position is as
before or has received exactly one more call. That a device is known by its calls is the model's choice (log 1). (From
10_state.md sections 4 and 8; log 1.) -/
def Obligations.DeviceListIsFixed : Prop :=
  ∀ s t : State, step s = .next t → t.devices.length = s.devices.length ∧
    ∀ (k : Nat) (d e : Device), s.devices[k]? = some d → t.devices[k]? = some e → e = d ∨ ∃ c, e.calls = d.calls ++ [c]

/-- For every instruction and state, if exec answers a next state, every register outside the instruction's row of "w"
entries in the access table is unchanged: in particular S is written only by CopyAS, CopyBS, CopyXS, SwapAS, SwapBS,
and B by no arithmetic instruction. (From 10_state.md section 8.) -/
def Obligations.OnlyNamedRegistersAreWritten : Prop :=
  ∀ (i : Instr) (s t : State), exec i s = .next t → SameRegsBut (writtenRegs i) s t

/-- If exec of an instruction that is none of PushABus, PushBBus, PushXBus, PushABusS, PushBBusS, PushXBusS answers a
next state, every word of memory and every byte of program is as before; and if it is none of the six loads LoadBusA,
LoadBusB, LoadBusX, LoadBusAS, LoadBusBS, LoadBusXS either, no device has received a call. (From 10_state.md section
8; 44_bus_load_store.md.) -/
def Obligations.OnlyStoresChangeMemoryOrProgram : Prop :=
  ∀ (i : Instr) (s t : State), exec i s = .next t →
    (∀ addr r mode, (i, r, mode) ∉ storeForms addr) →
    SameMemory s t ∧ SameProgram s t ∧
    ((∀ addr r mode, (i, r, mode) ∉ loadForms addr) → SameDevices s t)

/-- If the step of the decoded instruction i answers a next state: where i writes no X, the next X is X plus the
length of i and at most 65536; where i is one of SkipEq, SkipGrEq, SkipGr, SkipLe, SkipLeEq, the next X is at most
65544. It rests on the spec's decisions D3 and D8 (log 10, log 12). (From 10_state.md section 2; 92_eei_decisions.md
D3.) -/
def Obligations.AdvanceNeverPassesTheEnd : Prop :=
  ∀ (s t : State) (i : Instr) (len : Nat), decodeAt s.program s.regX = .ok (i, len) → step s = .next t →
    (Reg.x ∉ writtenRegs i → t.regX.toNat = s.regX.toNat + i.length ∧ t.regX.toNat ≤ 65536) ∧
    ((∃ rel, (i, rel) ∈ skipForms) → t.regX.toNat ≤ 65544)

/-- If every byte of program from X to 65535 is 0 and X is at most 65536, then 65536 - X successful ticks lead to a
state with X = 65536, A, B, S, memory and program as before, whose tick raises OutOfInstructions(65536): the run ends
normally there. (From 70_reset_and_hazards.md section 3.) -/
def Obligations.ZeroFilledTailRunsToTheEnd : Prop :=
  ∀ s : State, s.regX.toNat ≤ 65536 →
    (∀ p, s.regX.toNat ≤ p → p < 65536 → Memory.read s.program p = 0) →
    ∃ t, EndsNormally s (65536 - s.regX.toNat) t ∧ step t = .fault (.outOfInstructions 65536) ∧
      t.regX = 65536 ∧ SameRegsBut [.x] s t ∧ SameMemory s t ∧ SameProgram s t ∧ t.devices = s.devices

/-- NoOp is encoded as the byte 0 and has length 1; its execute step completes and changes nothing, so a tick at a
position up to 65535 whose byte is 0 answers the next state in which X is one more and every other register, memory,
program and the devices are as before; at a position past 65535 the tick raises OutOfInstructions and no NoOp is
decoded. (Rule R82.) -/
def Obligations.NoOpOnlyAdvancesX : Prop :=
  encode .noOp = [0] ∧ Instr.length .noOp = 1 ∧ (∀ s, exec .noOp s = .next s) ∧
  (∀ s : State, s.regX.toNat ≤ 65535 → Memory.read s.program s.regX.toNat = 0 →
    ∃ t, step s = .next t ∧ t.regX.toNat = s.regX.toNat + 1 ∧ SameRegsBut [.x] s t ∧ SameMemory s t ∧
      SameProgram s t ∧ t.devices = s.devices) ∧
  (∀ s : State, 65535 < s.regX.toNat → step s = .fault (.outOfInstructions s.regX))

/-- Add is encoded as the byte 3 and has length 1; on every state its execute step answers a next state in which A is
(A + B) mod 2^64 and B, S, X, memory, program and the devices are as before. Wrapping is the spec's decision D5 (log
11). (From 41_alu_arithmetic.md sections 1 and 2; 92_eei_decisions.md D5.) -/
def Obligations.AddIsSumModulo64Bits : Prop :=
  encode .add = [3] ∧ Instr.length .add = 1 ∧
  ∀ s : State, ∃ t, exec .add s = .next t ∧ t.regA.toNat = (s.regA.toNat + s.regB.toNat) % 2 ^ 64 ∧ OnlyRegs [.a] s t

/-- On every state the execute step of Subtract answers a next state in which A is A - B where A >= B and A - B + 2^64
where not, and B, S, X, memory, program and the devices are as before. Wrapping is the spec's decision D5 (log 11),
its opcode byte decision D1 (log 9). (From 41_alu_arithmetic.md section 2; 92_eei_decisions.md D5.) -/
def Obligations.SubtractWrapsBelowZero : Prop :=
  ∀ s : State, ∃ t, exec .subtract s = .next t ∧ OnlyRegs [.a] s t ∧
    t.regA.toNat =
      (if s.regB.toNat ≤ s.regA.toNat then s.regA.toNat - s.regB.toNat else s.regA.toNat + 2 ^ 64 - s.regB.toNat)

/-- On every state the execute step of Multiply answers a next state in which A is (A * B) mod 2^64 and B, S, X,
memory, program and the devices are as before. Wrapping is the spec's decision D5 (log 11), its opcode byte decision
D1 (log 9). (From 41_alu_arithmetic.md section 2; 92_eei_decisions.md D5.) -/
def Obligations.MultiplyKeepsLow64Bits : Prop :=
  ∀ s : State, ∃ t, exec .multiply s = .next t ∧ t.regA.toNat = (s.regA.toNat * s.regB.toNat) % 2 ^ 64 ∧
    OnlyRegs [.a] s t

/-- Divide is encoded as the byte 6 and has length 1. Where B is not 0 its execute step answers a next state in which
A is the floor of A / B and B, S, X, memory, program and the devices are as before. Where B is 0 it raises
DivideByZero, whatever A is, and a tick at a state that fetches Divide with B = 0 returns DivideByZero and leaves A,
B, S, X, memory and program as they were. The floor is the spec's decision D6 (log 11), that X stays decision D9 (log
13). (From 41_alu_arithmetic.md section 2; 60_exceptions.md sections 1 and 3; 92_eei_decisions.md D6;
92_eei_decisions.md D9.) -/
def Obligations.DivideIsFloorQuotientOrDivideByZero : Prop :=
  encode .divide = [6] ∧ Instr.length .divide = 1 ∧
  (∀ s : State, s.regB ≠ 0 →
    ∃ t, exec .divide s = .next t ∧ t.regA.toNat = s.regA.toNat / s.regB.toNat ∧ OnlyRegs [.a] s t) ∧
  (∀ s : State, s.regB = 0 → exec .divide s = .fault .divideByZero) ∧
  (∀ s : State, s.regB = 0 → decodeAt s.program s.regX = .ok (.divide, 1) →
    (tick s).1 = .error .divideByZero ∧ SameCore s (tick s).2)

/-- For CopyAB, CopyBA, CopyAX, CopyBX, CopyXA, CopyXB, CopyAS, CopyBS, CopyXS, CopySA, CopySB and CopySX, on every
state the execute step answers a next state in which the destination register holds the value of the source register
and every other register, memory, program and the devices are as before. Their opcode bytes are the spec's decision D1
(log 9). (From 42_register_copy_swap.md sections 1 to 5.) -/
def Obligations.CopiesMoveOneRegister : Prop :=
  ∀ (s : State) (i : Instr) (src dst : Reg), (i, src, dst) ∈ copyForms →
    ∃ t, exec i s = .next t ∧ t.reg dst = s.reg src ∧ OnlyRegs [dst] s t

/-- For SwapAB, SwapAS and SwapBS, on every state the execute step answers a next state in which each of the two
registers holds the other's old value and every other register, memory, program and the devices are as before. Their
opcode bytes are the spec's decision D1 (log 9). (From 42_register_copy_swap.md sections 1, 2 and 6.) -/
def Obligations.SwapsExchangeTwoRegisters : Prop :=
  ∀ (s : State) (i : Instr) (r q : Reg), (i, r, q) ∈ swapForms →
    ∃ t, exec i s = .next t ∧ t.reg r = s.reg q ∧ t.reg q = s.reg r ∧ OnlyRegs [r, q] s t

/-- LoadA imm is encoded as the byte 12 and the eight bytes of imm, most significant first, 9 bytes in all; on every
state and for every imm its execute step answers a next state in which A is imm and every other register, memory,
program and the devices are as before. The fetch of a byte 12 at position 65528 to 65535 raises OutOfInstructions of
that position. That a cut-off operand raises this error, with the opcode's position, is the spec's decision D10 (log
13). (From 43_load_immediate.md; 30_encoding.md sections 2 and 5; 92_eei_decisions.md D10.) -/
def Obligations.LoadALoadsItsLiteral : Prop :=
  (∀ imm : Word, (encode (.loadA imm)).length = 9 ∧ Instr.length (.loadA imm) = 9 ∧ (encode (.loadA imm))[0]? = some 12 ∧
    ∀ n, n < 8 → ((encode (.loadA imm))[n + 1]?).map BitVec.toNat = some (imm.toNat / 2 ^ (8 * (7 - n)) % 256)) ∧
  (∀ (s : State) (imm : Word), ∃ t, exec (.loadA imm) s = .next t ∧ t.regA = imm ∧ OnlyRegs [.a] s t) ∧
  (∀ (program : ByteMemory) (pc : Word), Memory.read program pc.toNat = 12 → 65528 ≤ pc.toNat → pc.toNat ≤ 65535 →
    decodeAt program pc = .error (.outOfInstructions pc))

/-- On every state and for every imm the execute step of LoadB imm answers a next state in which B is imm, and that of
LoadX imm one in which X is imm exactly, any value being accepted, and every other register, memory, program and the
devices are as before. Their opcode bytes are the spec's decision D1 (log 9), unchecked jumps D26 (log 15). (From
43_load_immediate.md; 92_eei_decisions.md D26.) -/
def Obligations.LoadBAndLoadXLoadTheirLiteral : Prop :=
  ∀ (s : State) (imm : Word),
    (∃ t, exec (.loadB imm) s = .next t ∧ t.regB = imm ∧ OnlyRegs [.b] s t) ∧
    (∃ t, exec (.loadX imm) s = .next t ∧ t.regX = imm ∧ OnlyRegs [.x] s t)

/-- Where the fetch at X gives CopyXA, CopyXB or CopyXS, the step completes with A, B or S holding the old X + 1;
where it gives PushXBus of an address up to 0xFFFF, with that word of memory holding the old X + 9; where it gives
PushXBusS with S up to 0xFFFF, with the word at S holding the old X + 1. The value read is the spec's decision D19
(log 10). (From 40_tick_cycle.md section 1; 92_eei_decisions.md D19.) -/
def Obligations.XReadersSeeTheNextPosition : Prop :=
  ∀ s : State,
    (decodeAt s.program s.regX = .ok (.copyXA, 1) → ∃ t, step s = .next t ∧ t.regA.toNat = s.regX.toNat + 1) ∧
    (decodeAt s.program s.regX = .ok (.copyXB, 1) → ∃ t, step s = .next t ∧ t.regB.toNat = s.regX.toNat + 1) ∧
    (decodeAt s.program s.regX = .ok (.copyXS, 1) → ∃ t, step s = .next t ∧ t.regS.toNat = s.regX.toNat + 1) ∧
    (∀ addr : Word, decodeAt s.program s.regX = .ok (.pushXBus addr, 9) → addr.toNat ≤ 0xFFFF →
      ∃ t, step s = .next t ∧ (Memory.read t.memory addr.toNat).toNat = s.regX.toNat + 9) ∧
    (decodeAt s.program s.regX = .ok (.pushXBusS, 1) → s.regS.toNat ≤ 0xFFFF →
      ∃ t, step s = .next t ∧ (Memory.read t.memory s.regS.toNat).toNat = s.regX.toNat + 1)

/-- For LoadBusA, LoadBusB, LoadBusX (address in the immediate) and LoadBusAS, LoadBusBS, LoadBusXS (address in S),
where the effective address is at most 0xFFFF the execute step answers a next state in which the destination register
is the word of memory at that address and every other register (S included unless it is none), memory, program and the
devices are as before. The opcode bytes are the spec's decision D1 (log 9). (From 44_bus_load_store.md sections 1 to
3.) -/
def Obligations.LoadsFromMemoryComplete : Prop :=
  ∀ (s : State) (addr : Word) (i : Instr) (r : Reg) (mode : AddrMode), (i, r, mode) ∈ loadForms addr →
    (s.effAddr mode).toNat ≤ 0xFFFF →
    ∃ t, exec i s = .next t ∧ t.reg r = Memory.read s.memory (s.effAddr mode).toNat ∧ OnlyRegs [r] s t

/-- For LoadBusA, LoadBusB, LoadBusX, LoadBusAS, LoadBusBS, LoadBusXS, where the effective address is 0x10000 to
0x1FFFF the execute step answers a next state in which the destination register, as a number, is the byte of program
at that address less 0x10000, and every other register, memory, program and the devices are as before. The opcode
bytes are the spec's decision D1 (log 9). (From 44_bus_load_store.md sections 1 to 3; 20_memory.md section 2.) -/
def Obligations.LoadsFromProgramZeroExtend : Prop :=
  ∀ (s : State) (addr : Word) (i : Instr) (r : Reg) (mode : AddrMode), (i, r, mode) ∈ loadForms addr →
    0x10000 ≤ (s.effAddr mode).toNat → (s.effAddr mode).toNat ≤ 0x1FFFF →
    ∃ t, exec i s = .next t ∧
      (t.reg r).toNat = (Memory.read s.program ((s.effAddr mode).toNat - 0x10000)).toNat ∧ OnlyRegs [r] s t

/-- For LoadBusA, LoadBusB, LoadBusX, LoadBusAS, LoadBusBS, LoadBusXS and every state, devices claiming the address or
not: where the router's load of the effective address answers a value and a state, the execute step completes with
that state and the destination register that value; where it raises an error, so does the execute step. (From
44_bus_load_store.md section 1.) -/
def Obligations.LoadsAreRoutedReads : Prop :=
  ∀ (s : State) (addr : Word) (i : Instr) (r : Reg) (mode : AddrMode), (i, r, mode) ∈ loadForms addr →
    exec i s = (match routeLoad Config.platform s (s.effAddr mode) with
      | .ok (v, t) => .next (t.setReg r v)
      | .error f => .fault f)

/-- For PushABus, PushBBus, PushXBus (address in the immediate) and PushABusS, PushBBusS, PushXBusS (address in S),
where the effective address is at most 0xFFFF the execute step answers a next state in which the word of memory at
that address is the register stored, every other word of memory, every byte of program, every register and the devices
are as before. The opcode bytes but PushABus's are the spec's decision D1 (log 9). (From 44_bus_load_store.md sections
1 to 3.) -/
def Obligations.StoresToMemoryComplete : Prop :=
  ∀ (s : State) (addr : Word) (i : Instr) (r : Reg) (mode : AddrMode), (i, r, mode) ∈ storeForms addr →
    (s.effAddr mode).toNat ≤ 0xFFFF →
    ∃ t, exec i s = .next t ∧ Memory.read t.memory (s.effAddr mode).toNat = s.reg r ∧
      (∀ a, a ≠ (s.effAddr mode).toNat → Memory.read t.memory a = Memory.read s.memory a) ∧
      SameRegsBut [] s t ∧ SameProgram s t ∧ SameDevices s t

/-- For PushABus, PushBBus, PushXBus, PushABusS, PushBBusS, PushXBusS, where the effective address is 0x10000 to
0x1FFFF the execute step answers a next state in which the byte of program at that address less 0x10000 is the
register stored modulo 256, every other byte of program, every word of memory, every register and the devices are as
before. The opcode bytes but PushABus's are the spec's decision D1 (log 9). (From 44_bus_load_store.md sections 1 to
3; 20_memory.md section 2.) -/
def Obligations.StoresToProgramKeepLowByte : Prop :=
  ∀ (s : State) (addr : Word) (i : Instr) (r : Reg) (mode : AddrMode), (i, r, mode) ∈ storeForms addr →
    0x10000 ≤ (s.effAddr mode).toNat → (s.effAddr mode).toNat ≤ 0x1FFFF →
    ∃ t, exec i s = .next t ∧
      (Memory.read t.program ((s.effAddr mode).toNat - 0x10000)).toNat = (s.reg r).toNat % 256 ∧
      (∀ p, p ≠ (s.effAddr mode).toNat - 0x10000 → Memory.read t.program p = Memory.read s.program p) ∧
      SameRegsBut [] s t ∧ SameMemory s t ∧ SameDevices s t

/-- For PushABus, PushBBus, PushXBus, PushABusS, PushBBusS, PushXBusS and every state, devices claiming the address or
not: where the router's store of the register to the effective address answers a state, the execute step completes
with that state; where it raises an error, so does the execute step. (From 44_bus_load_store.md section 1.) -/
def Obligations.StoresAreRoutedWrites : Prop :=
  ∀ (s : State) (addr : Word) (i : Instr) (r : Reg) (mode : AddrMode), (i, r, mode) ∈ storeForms addr →
    exec i s = (match routeStore Config.platform s (s.effAddr mode) (s.reg r) with
      | .ok t => .next t
      | .error f => .fault f)

/-- Where the device list is empty and the effective address is 0x20000 or more, each of the six loads LoadBusA,
LoadBusB, LoadBusX, LoadBusAS, LoadBusBS, LoadBusXS raises IllegalAddressLoad, and each of the six stores PushABus,
PushBBus, PushXBus, PushABusS, PushBBusS, PushXBusS raises IllegalAddressStore, of that address. That the list may be
empty is the spec's decision D29. (From 20_memory.md section 3; 92_eei_decisions.md D29.) -/
def Obligations.AccessWithoutDevicesIsIllegal : Prop :=
  ∀ (s : State) (addr : Word) (i : Instr) (r : Reg) (mode : AddrMode), s.devices = [] →
    0x20000 ≤ (s.effAddr mode).toNat →
    ((i, r, mode) ∈ loadForms addr → exec i s = .fault (.illegalAddressLoad (s.effAddr mode))) ∧
    ((i, r, mode) ∈ storeForms addr → exec i s = .fault (.illegalAddressStore (s.effAddr mode)))

/-- For every platform, state, address up to 0xFFFF and value: the router's load returns the word of memory at the
address and changes nothing; its store succeeds, sets that word to the value and leaves every other word of memory,
program, the registers and the devices; and a load of the same address after it returns the value. (Rule R34.) -/
def Obligations.MemoryWordsRoundTrip : Prop :=
  ∀ (p : Platform) (s : State) (addr v : Word), addr.toNat ≤ 0xFFFF →
    routeLoad p s addr = .ok (Memory.read s.memory addr.toNat, s) ∧
    ∃ t, routeStore p s addr v = .ok t ∧ Memory.read t.memory addr.toNat = v ∧
      (∀ a, a ≠ addr.toNat → Memory.read t.memory a = Memory.read s.memory a) ∧
      SameRegsBut [] s t ∧ SameProgram s t ∧ SameDevices s t ∧ routeLoad p t addr = .ok (v, t)

/-- For every platform, state, address 0x10000 to 0x1FFFF and value, whatever its high bits: the router's store
succeeds, sets the byte of program at the address less 65536 to the value's low 8 bits and leaves every other byte of
program, memory, the registers and the devices; a load of the same address after it returns v & 0xFF. (Rule R36.) -/
def Obligations.ProgramStoreTruncates : Prop :=
  ∀ (p : Platform) (s : State) (addr v : Word), 0x10000 ≤ addr.toNat → addr.toNat ≤ 0x1FFFF →
    ∃ t, routeStore p s addr v = .ok t ∧
      Memory.read t.program (addr.toNat - 65536) = v.extractLsb' 0 8 ∧
      (∀ q, q ≠ addr.toNat - 65536 → Memory.read t.program q = Memory.read s.program q) ∧
      SameRegsBut [] s t ∧ SameMemory s t ∧ SameDevices s t ∧ routeLoad p t addr = .ok (v &&& 0xFF, t)

/-- For every platform, state and address 0x10000 to 0x1FFFF the router's load succeeds, changes nothing and returns
the value of the one byte of program at the address less 65536, which is at most 255 and depends on no other byte.
(Rule R35.) -/
def Obligations.ProgramLoadZeroExtends : Prop :=
  ∀ (p : Platform) (s : State) (addr : Word), 0x10000 ≤ addr.toNat → addr.toNat ≤ 0x1FFFF →
    ∃ v, routeLoad p s addr = .ok (v, s) ∧ v.toNat = (Memory.read s.program (addr.toNat - 65536)).toNat ∧ v.toNat ≤ 255

/-- For every platform, state, address and value: the router's load raises IllegalAddressLoad of the address, and its
store IllegalAddressStore of it, exactly when the address is 0x20000 or more and no device of the list claims it.
(Rule R42.) -/
def Obligations.UnmappedAddressRaises : Prop :=
  ∀ (p : Platform) (s : State) (addr v : Word),
    (routeLoad p s addr = .error (.illegalAddressLoad addr) ↔
      0x20000 ≤ addr.toNat ∧ ∀ k d, s.devices[k]? = some d → deviceClaims p s.ticks addr k d = false) ∧
    (routeStore p s addr v = .error (.illegalAddressStore addr) ↔
      0x20000 ≤ addr.toNat ∧ ∀ k d, s.devices[k]? = some d → deviceClaims p s.ticks addr k d = false)

/-- For every platform, a device claims an address where the minimum of its range is at most the address and the
address at most its maximum, both bounds inside, so that a range with its minimum above its maximum claims nothing. At
an address of 0x20000 or more, where the device at position k claims it and no later one does: the router's load
returns that device's value, leaves the core, and every claiming device of the list, and no other, has received one
more call, the load of that address. The inclusive bounds are the spec's decision D12, overlap and the order its
decisions D11, D24 and D25 (log 14). (From 20_memory.md section 3; 92_eei_decisions.md D12; 92_eei_decisions.md D24.)
-/
def Obligations.LastClaimingDeviceAnswersLoad : Prop :=
  ∀ (p : Platform) (s : State) (addr : Word) (k : Nat) (d : Device), 0x20000 ≤ addr.toNat → s.devices[k]? = some d →
    (p.range k d.calls s.ticks).1.toNat ≤ addr.toNat → addr.toNat ≤ (p.range k d.calls s.ticks).2.toNat →
    (∀ j e, k < j → s.devices[j]? = some e →
      addr.toNat < (p.range j e.calls s.ticks).1.toNat ∨ (p.range j e.calls s.ticks).2.toNat < addr.toNat) →
    ∃ t, routeLoad p s addr = .ok (p.loadValue k d.calls s.ticks addr, t) ∧ SameCore s t ∧ t.ticks = s.ticks ∧
      t.devices.length = s.devices.length ∧
      ∀ j e, s.devices[j]? = some e → t.devices[j]? =
        some (if (p.range j e.calls s.ticks).1.toNat ≤ addr.toNat ∧ addr.toNat ≤ (p.range j e.calls s.ticks).2.toNat then
          e.called (.load s.ticks addr) else e)

/-- For every platform, at an address of 0x20000 or more that some device claims, where the store of every claiming
device succeeds: the router's store succeeds, leaves the core, and every claiming device, and no other, has received
one more call, the store of the value at that address. Overlap and the order are the spec's decisions D11 and D25 (log
14). (From 20_memory.md section 3; 92_eei_decisions.md D11.) -/
def Obligations.StoreReachesEveryClaimingDevice : Prop :=
  ∀ (p : Platform) (s : State) (addr v : Word), 0x20000 ≤ addr.toNat →
    (∃ (k : Nat) (d : Device), s.devices[k]? = some d ∧ deviceClaims p s.ticks addr k d = true) →
    (∀ k d, s.devices[k]? = some d → deviceClaims p s.ticks addr k d = true →
      p.storeOk k d.calls s.ticks addr v = true) →
    ∃ t, routeStore p s addr v = .ok t ∧ SameCore s t ∧ t.ticks = s.ticks ∧
      t.devices.length = s.devices.length ∧
      ∀ j e, s.devices[j]? = some e → t.devices[j]? =
        some (if deviceClaims p s.ticks addr j e then e.called (.store s.ticks addr v) else e)

/-- For every platform, at an address of 0x20000 or more, where the device at position k claims it and its store fails
while the stores of all claiming devices before it succeed: the router raises DeviceError of the address and k, and
the devices left are those with the store call added to every claiming device up to position k and to none after. It
rests on the spec's decision D13 (log 14); that the error carries the devices left is the model's choice (log 4).
(From 20_memory.md section 3; 92_eei_decisions.md D13.) -/
def Obligations.StoreStopsAtFirstFailingDevice : Prop :=
  ∀ (p : Platform) (s : State) (addr v : Word) (k : Nat) (d : Device), 0x20000 ≤ addr.toNat →
    s.devices[k]? = some d → deviceClaims p s.ticks addr k d = true → p.storeOk k d.calls s.ticks addr v = false →
    (∀ j e, j < k → s.devices[j]? = some e → deviceClaims p s.ticks addr j e = true →
      p.storeOk j e.calls s.ticks addr v = true) →
    ∃ left, routeStore p s addr v = .error (.deviceError addr k left) ∧ left.length = s.devices.length ∧
      ∀ j e, s.devices[j]? = some e → left[j]? =
        some (if j ≤ k ∧ deviceClaims p s.ticks addr j e = true then e.called (.store s.ticks addr v) else e)

/-- For devices each given by a state type, an initial state and the functions range, load and store: on the platform
made of them, the scan of a load returns the same value as the loop over the device states and leaves devices whose
states are the loop's, and the scan of a store finds, fails and leaves the same. So knowing a device by the calls it
has received, the model's choice (log 1), loses no device of the spec's form. (From 20_memory.md sections 2 and 3; log
1.) -/
def Obligations.RouterScansRefineDeviceModels : Prop :=
  ∀ (σ : Type) (models : Nat → DeviceModel σ) (now : Nat) (addr v : Word) (devices : List Device),
    ((scanLoad (Platform.ofModels models) now addr 0 none devices).1 =
        (modelScanLoad models addr 0 none (modelStates models 0 devices)).1 ∧
      modelStates models 0 (scanLoad (Platform.ofModels models) now addr 0 none devices).2 =
        (modelScanLoad models addr 0 none (modelStates models 0 devices)).2) ∧
    ((scanStore (Platform.ofModels models) now addr v 0 false devices).found =
        (modelScanStore models addr v 0 false (modelStates models 0 devices)).1 ∧
      (scanStore (Platform.ofModels models) now addr v 0 false devices).failed =
        (modelScanStore models addr v 0 false (modelStates models 0 devices)).2.1 ∧
      modelStates models 0 (scanStore (Platform.ofModels models) now addr v 0 false devices).devices =
        (modelScanStore models addr v 0 false (modelStates models 0 devices)).2.2)

/-- For every state and position pos up to 65535 where the low byte of A is the whole encoding of a one-byte
instruction i: PushABus to address 0x10000 + pos completes, and the step of the state after it with X set to pos is
exec of i there, with no barrier between. (From 20_memory.md sections 5 and 6.) -/
def Obligations.FetchSeesTheStoredOpcode : Prop :=
  ∀ (s : State) (pos : Word) (i : Instr), pos.toNat ≤ 65535 → encode i = [s.regA.setWidth 8] →
    ∃ t, exec (.pushABus (0x10000 + pos)) s = .next t ∧
      step { t with regX := pos } = exec i (State.advance { t with regX := pos } 1)

/-- For SkipEq, SkipGrEq, SkipGr, SkipLe and SkipLeEq, where A and B as unsigned numbers are in the relation named (=,
>=, >, <, <=): the execute step answers a next state in which, X being already past the Skip, X is greater by 9 where
the byte of program at X is one of 1, 2, 10, 11, 12, 13, 14, 17, 18 and by 1 where it is any other, and is unchanged
where X is 65536 or more; A, B, S, memory, program and the devices are as before. It rests on the spec's decisions D7
and D8 (log 12). (From 45_skip_compare.md sections 1 and 2; 92_eei_decisions.md D8.) -/
def Obligations.SkipPassesOneInstructionWhenItsRelationHolds : Prop :=
  ∀ (s : State) (i : Instr) (rel : Nat → Nat → Prop), (i, rel) ∈ skipForms → rel s.regA.toNat s.regB.toNat →
    ∃ t, exec i s = .next t ∧ OnlyRegs [.x] s t ∧
      t.regX.toNat =
        if 65535 < s.regX.toNat then s.regX.toNat
        else if (Memory.read s.program s.regX.toNat).toNat ∈ [1, 2, 10, 11, 12, 13, 14, 17, 18] then s.regX.toNat + 9
        else s.regX.toNat + 1

/-- For SkipEq, SkipGrEq, SkipGr, SkipLe and SkipLeEq, where A and B as unsigned numbers are not in the relation named
(=, >=, >, <, <=), the execute step answers the same state as next state. It rests on the spec's decision D7 (log 12).
(From 45_skip_compare.md sections 1 and 2; 92_eei_decisions.md D7.) -/
def Obligations.SkipDoesNothingWhenItsRelationFails : Prop :=
  ∀ (s : State) (i : Instr) (rel : Nat → Nat → Prop), (i, rel) ∈ skipForms → ¬ rel s.regA.toNat s.regB.toNat →
    exec i s = .next s

/-- On every state where a next byte exists (X up to 65535) the execute step of each Skip answers a next state in
which A, B, S, memory, program and the devices are as before and X is moved exactly as follows: SkipEq where A = B,
SkipGrEq where A > B or A = B, SkipGr where A > B, SkipLe where A < B, SkipLeEq where A < B or A = B. It rests on the
spec's decision D7, and on D8 in that a Skip that holds always moves X there (log 12). (From 45_skip_compare.md
section 3; 92_eei_decisions.md D7; 92_eei_decisions.md D8.) -/
def Obligations.SkipTruthTable : Prop :=
  ∀ s : State, s.regX.toNat ≤ 65535 →
    (∃ t, exec .skipEq s = .next t ∧ OnlyRegs [.x] s t ∧
      (t.regX ≠ s.regX ↔ s.regA.toNat = s.regB.toNat)) ∧
    (∃ t, exec .skipGrEq s = .next t ∧ OnlyRegs [.x] s t ∧
      (t.regX ≠ s.regX ↔ s.regB.toNat < s.regA.toNat ∨ s.regA.toNat = s.regB.toNat)) ∧
    (∃ t, exec .skipGr s = .next t ∧ OnlyRegs [.x] s t ∧
      (t.regX ≠ s.regX ↔ s.regB.toNat < s.regA.toNat)) ∧
    (∃ t, exec .skipLe s = .next t ∧ OnlyRegs [.x] s t ∧
      (t.regX ≠ s.regX ↔ s.regA.toNat < s.regB.toNat)) ∧
    (∃ t, exec .skipLeEq s = .next t ∧ OnlyRegs [.x] s t ∧
      (t.regX ≠ s.regX ↔ s.regA.toNat < s.regB.toNat ∨ s.regA.toNat = s.regB.toNat))

/-- Where the decoder reads an instruction i from an opcode-table word, the step of any state with that word placed
where it fetches is exec of i on that state advanced by the length of i. The placing is the model's own hook, not the
spec's (log 6). (From 30_encoding.md section 4; log 6.) -/
def Obligations.FetchWordPlacesTheInstructionToRun : Prop :=
  ∀ (s : State) (nbits w : Nat) (i : Instr), decodeTableWord nbits w = some i →
    step (s.withFetchWord nbits w) = exec i ((s.withFetchWord nbits w).advance i.length)

/-- For every platform, tick, address, position and device: the device claims the address exactly when the minimum of
the range it reports is at most the address and the address is at most its maximum; where the minimum is above the
maximum it claims no address. This is the claim that the statements on the router's devices speak of; it is the spec's
decision D12 (log 14). (From 20_memory.md section 3; 92_eei_decisions.md D12.) -/
def Obligations.DeviceClaimsItsInclusiveRange : Prop :=
  ∀ (p : Platform) (tick : Nat) (addr : Word) (k : Nat) (d : Device),
    (deviceClaims p tick addr k d = true ↔
      (p.range k d.calls tick).1.toNat ≤ addr.toNat ∧ addr.toNat ≤ (p.range k d.calls tick).2.toNat) ∧
    ((p.range k d.calls tick).2.toNat < (p.range k d.calls tick).1.toNat → deviceClaims p tick addr k d = false)

/-- For every platform p and state: where the fetch gives instruction i of length len, the step on p is execOn p of i
on the state with X advanced by len and one tick counted, and where it gives an error, that error. execOn p of
LoadBusA, LoadBusB, LoadBusX, LoadBusAS, LoadBusBS and LoadBusXS is the load of the effective address by the router on
p, its value in the destination register; of PushABus, PushBBus, PushXBus, PushABusS, PushBBusS and PushXBusS the
store of the register by the router on p; of every other instruction it is exec. On the machine's own platform, whose
answers are free (log 1), execOn, stepOn and tickOn are exec, step and tick. The order of advance and execute is the
spec's decisions D3 and D19 (log 10), the counter is the model's own (log 2). (From 00_scope.md section 5;
20_memory.md section 3; 40_tick_cycle.md section 1; 92_eei_decisions.md D28; log 1.) -/
def Obligations.ExecuteTakesItsPlatform : Prop :=
  (∀ (p : Platform) (s : State),
    (∀ i len, decodeAt s.program s.regX = .ok (i, len) →
      stepOn p s = execOn p i { s with regX := s.regX + BitVec.ofNat 64 len, ticks := s.ticks + 1 }) ∧
    (∀ f, decodeAt s.program s.regX = .error f → stepOn p s = .fault f) ∧
    (∀ addr i r mode, (i, r, mode) ∈ loadForms addr →
      execOn p i s = (match routeLoad p s (s.effAddr mode) with
        | .ok (v, t) => .next (t.setReg r v)
        | .error f => .fault f)) ∧
    (∀ addr i r mode, (i, r, mode) ∈ storeForms addr →
      execOn p i s = (match routeStore p s (s.effAddr mode) (s.reg r) with
        | .ok t => .next t
        | .error f => .fault f)) ∧
    (∀ i, (∀ addr r mode, (i, r, mode) ∉ loadForms addr) → (∀ addr r mode, (i, r, mode) ∉ storeForms addr) →
      execOn p i s = exec i s)) ∧
  (∀ i s, execOn Config.platform i s = exec i s) ∧
  ∀ s, stepOn Config.platform s = step s ∧ tickOn Config.platform s = tick s

/-- For every machine with supplied devices, each with a state type of its own, at a tick whose instruction's
effective address is 0x20000 or more. A load LoadBusA/B/X, LoadBusAS/BS/XS: where the loop of the spec over the
devices in their present states finds a value, the tick succeeds, the destination holds it, the devices are those the
loop leaves, X is past the instruction unless it is the destination, and every other register, memory and program are
as before; where it finds none, the tick returns IllegalAddressLoad of the address and core and devices are as before.
A store PushABus/BBus/XBus, PushABusS/BBusS/XBusS, of the register's value after X is advanced: where the loop is
done, the tick succeeds with the devices it leaves and nothing else changed but X; where no device claims,
IllegalAddressStore with core and devices as before; where the device at k fails, DeviceError of the address and k,
the core as before and the devices as the loop leaves them. It rests on the spec's decisions D11 to D14, D24, D25 (log
14), D9 (log 13), D3 and D19 (log 10); that DeviceError carries the devices left is the model's choice (log 4). (From
00_scope.md section 5; 20_memory.md sections 2 and 3; 92_eei_decisions.md D28; 92_eei_decisions.md D13;
92_eei_decisions.md D9; log 4.) -/
def Obligations.TicksRunTheSuppliedDevices : Prop :=
  ∀ (m : System) (addr : Word) (i : Instr) (r : Reg) (mode : AddrMode) (len : Nat),
    decodeAt m.core.program m.core.regX = .ok (i, len) → 0x20000 ≤ (m.core.effAddr mode).toNat →
    ((i, r, mode) ∈ loadForms addr →
      (∀ v, (liveScanLoad (m.core.effAddr mode) none m.live).1 = some v →
        ∃ n, m.tick = (.ok, n) ∧ n.core.reg r = v ∧ (r ≠ .x → n.core.regX = m.core.regX + BitVec.ofNat 64 len) ∧
          SameRegsBut [r, .x] m.core n.core ∧ SameMemory m.core n.core ∧ SameProgram m.core n.core ∧
          n.attached = m.attached ∧ n.live = (liveScanLoad (m.core.effAddr mode) none m.live).2) ∧
      ((liveScanLoad (m.core.effAddr mode) none m.live).1 = none →
        ∃ n, m.tick = (.error (.illegalAddressLoad (m.core.effAddr mode)), n) ∧ SameCore m.core n.core ∧
          n.attached = m.attached ∧ n.live = m.live)) ∧
    ((i, r, mode) ∈ storeForms addr → ∀ v, v = (m.core.advance len).reg r →
      ((liveScanStore (m.core.effAddr mode) v 0 false m.live).1 = .done →
        ∃ n, m.tick = (.ok, n) ∧ n.core.regX = m.core.regX + BitVec.ofNat 64 len ∧
          SameRegsBut [.x] m.core n.core ∧ SameMemory m.core n.core ∧ SameProgram m.core n.core ∧
          n.attached = m.attached ∧ n.live = (liveScanStore (m.core.effAddr mode) v 0 false m.live).2) ∧
      ((liveScanStore (m.core.effAddr mode) v 0 false m.live).1 = .unclaimed →
        ∃ n, m.tick = (.error (.illegalAddressStore (m.core.effAddr mode)), n) ∧ SameCore m.core n.core ∧
          n.attached = m.attached ∧ n.live = m.live) ∧
      (∀ k, (liveScanStore (m.core.effAddr mode) v 0 false m.live).1 = .failed k →
        ∃ n left, m.tick = (.error (.deviceError (m.core.effAddr mode) k left), n) ∧ SameCore m.core n.core ∧
          n.attached = m.attached ∧ n.live = (liveScanStore (m.core.effAddr mode) v 0 false m.live).2))

/-- For every image and every list of devices, the constructed machine's core is the construction from the image with
that many devices, and its devices, in the order of the list, are in their initial states. After any number of ticks,
errors included, the device list is the one given and there is one live device for each. That a device's state is what
its calls have made of the initial one is the model's choice (log 1). (From 00_scope.md section 5;
70_reset_and_hazards.md section 1; log 1.) -/
def Obligations.SystemKeepsItsDevices : Prop :=
  ∀ (image : List Byte) (attached : List AttachedDevice),
    (System.new image attached).core = State.new image attached.length ∧
    (System.new image attached).live = attached.map (fun d => { σ := d.σ, model := d.model, state := d.model.init }) ∧
    ∀ n, ((System.new image attached).afterTicks n).attached = attached ∧
      ((System.new image attached).afterTicks n).live.length = attached.length
end

