-- ==== Sys2Proof/Laws/Decode.lean ====
section
/-! SUPPORT. What the decoder and the encoder can answer. -/

namespace Sys2Proof

/-- The forty bytes of the recognised set, as a range (R68, D2). -/
theorem variant_eq_none_iff (b : Byte) : variant b = none ↔ 40 ≤ b.toNat := by
  unfold variant
  rw [List.getElem?_eq_none_iff]
  rfl

/-- A format read from the map carries its own length: nine bytes for the nine OPI opcodes, one for the others
(R65, R66). -/
theorem variant_ilen (b : Byte) : ∀ fmt, variant b = some fmt →
    match fmt with
    | .op i => ilen b = 1 ∧ i.length = 1 ∧ i.immediate = none ∧ i.opcode = b
    | .opi f => ilen b = 9 ∧ ∀ v, (f v).length = 9 ∧ (f v).immediate = some v ∧ (f v).opcode = b := by
  intro fmt h
  have hlt : b.toNat < 40 := by
    by_contra hge
    rw [(variant_eq_none_iff b).2 (by omega)] at h
    cases h
  have hb : b = BitVec.ofNat 8 b.toNat := by simp
  generalize b.toNat = n at hlt hb
  subst hb
  interval_cases n <;>
    (simp only [variant, opcodeMap] at h; cases h; simp [ilen, Instr.length, Instr.immediate, Instr.opcode, Config.immBytes])

/-- The opcode byte of every instruction is in the map, in the instruction's own format (R65). -/
theorem variant_opcode (i : Instr) :
    (i.immediate = none ∧ variant i.opcode = some (.op i)) ∨
    (∃ f v, i = f v ∧ i.immediate = some v ∧ variant i.opcode = some (.opi f)) := by
  cases i <;> first
    | exact .inl ⟨rfl, rfl⟩
    | exact .inr ⟨_, _, rfl, rfl, rfl⟩

/-- What `decodeBytes` can answer: the two errors, or an instruction of format OP or OPI (R67). -/
theorem decodeBytes_cases (b : Byte) (operand : List Byte) :
    (variant b = none ∧ decodeBytes (b :: operand) = .error (.illegalInstruction b)) ∨
    (∃ i, variant b = some (.op i) ∧ decodeBytes (b :: operand) = .ok (i, 1)) ∨
    (∃ f, variant b = some (.opi f) ∧
      ((operand.length < 8 ∧ decodeBytes (b :: operand) = .error .outOfInstructions) ∨
        (8 ≤ operand.length ∧ decodeBytes (b :: operand) = .ok (f (bigEndian (operand.take 8)), 9)))) := by
  match h : variant b with
  | none => exact .inl ⟨rfl, by simp [decodeBytes, h]⟩
  | some (.op i) => exact .inr (.inl ⟨i, rfl, by simp [decodeBytes, h]⟩)
  | some (.opi f) =>
    refine .inr (.inr ⟨f, rfl, ?_⟩)
    by_cases hl : operand.length < 8
    · exact .inl ⟨hl, by simp [decodeBytes, h, Config.immBytes, hl]⟩
    · exact .inr ⟨by omega, by simp [decodeBytes, h, Config.immBytes, hl]⟩

/-- Eight bytes read big-endian, as a number (R63). -/
theorem bigEndian_toNat (b₁ b₂ b₃ b₄ b₅ b₆ b₇ b₈ : Byte) :
    (bigEndian [b₁, b₂, b₃, b₄, b₅, b₆, b₇, b₈]).toNat =
      b₁.toNat * 2 ^ 56 + b₂.toNat * 2 ^ 48 + b₃.toNat * 2 ^ 40 + b₄.toNat * 2 ^ 32 +
      b₅.toNat * 2 ^ 24 + b₆.toNat * 2 ^ 16 + b₇.toNat * 2 ^ 8 + b₈.toNat := by
  have step : ∀ (acc : Word) (b : Byte), acc.toNat < 2 ^ 56 →
      (acc <<< 8 ||| b.setWidth 64).toNat = acc.toNat * 256 + b.toNat := by
    intro acc b h
    have hb := b.isLt
    have hs : acc.toNat <<< 8 % 2 ^ 64 = acc.toNat <<< 8 := Nat.mod_eq_of_lt (by rw [Nat.shiftLeft_eq]; omega)
    have hw : b.toNat % 2 ^ 64 = b.toNat := Nat.mod_eq_of_lt (by omega)
    rw [BitVec.toNat_or, BitVec.toNat_shiftLeft, BitVec.toNat_setWidth, hs, hw,
      ← Nat.shiftLeft_add_eq_or_of_lt (by omega), Nat.shiftLeft_eq]
  have h₁ := b₁.isLt; have h₂ := b₂.isLt; have h₃ := b₃.isLt; have h₄ := b₄.isLt
  have h₅ := b₅.isLt; have h₆ := b₆.isLt; have h₇ := b₇.isLt; have h₈ := b₈.isLt
  simp only [bigEndian, List.foldl_cons, List.foldl_nil]
  have e₁ : ((0 : Word) <<< 8 ||| b₁.setWidth 64).toNat = b₁.toNat := by simpa using step 0 b₁ (by decide)
  have e₂ := step _ b₂ (by rw [e₁]; omega)
  have e₃ := step _ b₃ (by rw [e₂, e₁]; omega)
  have e₄ := step _ b₄ (by rw [e₃, e₂, e₁]; omega)
  have e₅ := step _ b₅ (by rw [e₄, e₃, e₂, e₁]; omega)
  have e₆ := step _ b₆ (by rw [e₅, e₄, e₃, e₂, e₁]; omega)
  have e₇ := step _ b₇ (by rw [e₆, e₅, e₄, e₃, e₂, e₁]; omega)
  have e₈ := step _ b₈ (by rw [e₇, e₆, e₅, e₄, e₃, e₂, e₁]; omega)
  rw [e₈, e₇, e₆, e₅, e₄, e₃, e₂, e₁]
  omega

/-- The n-th operand byte of an immediate, most significant first, as a number (R62). -/
theorem immediateBytes_eq (v : Word) : immediateBytes v =
    [BitVec.ofNat 8 (v.toNat >>> 56), BitVec.ofNat 8 (v.toNat >>> 48), BitVec.ofNat 8 (v.toNat >>> 40),
     BitVec.ofNat 8 (v.toNat >>> 32), BitVec.ofNat 8 (v.toNat >>> 24), BitVec.ofNat 8 (v.toNat >>> 16),
     BitVec.ofNat 8 (v.toNat >>> 8), BitVec.ofNat 8 v.toNat] := by
  rfl

/-- The operand bytes of an immediate read back as the immediate (R63, R76). -/
theorem bigEndian_immediateBytes (v : Word) : bigEndian (immediateBytes v) = v := by
  apply BitVec.eq_of_toNat_eq
  rw [immediateBytes_eq, bigEndian_toNat]
  simp only [BitVec.toNat_ofNat, Nat.shiftRight_eq_div_pow]
  have := v.isLt
  omega

@[simp] theorem immediateBytes_length (v : Word) : (immediateBytes v).length = 8 := rfl

/-- The encoding is as long as the instruction (R60, R76). -/
theorem encode_length (i : Instr) : (encode i).length = i.length := by
  unfold encode Instr.length
  split <;> simp_all [Config.immBytes]

end Sys2Proof
end

