-- ==== Sys2Proof/Laws/Memory.lean ====
section
/-! SUPPORT. The laws of the two arrays: what a read sees after a write, on any list of cells, and that every
operation keeps the canonical form. -/

namespace Sys2Proof.Machine

section Cells

variable {w : Nat}

@[simp] theorem Memory.read_nil (i : Nat) : Memory.read ([] : List (Nat × BitVec w)) i = 0 := rfl

theorem Memory.read_cons (k : Nat) (v : BitVec w) (rest : List (Nat × BitVec w)) (i : Nat) :
    Memory.read ((k, v) :: rest) i = if k = i then v else Memory.read rest i := rfl

theorem Memory.read_erase (cells : List (Nat × BitVec w)) (i j : Nat) :
    Memory.read (Memory.erase cells i) j = if j = i then 0 else Memory.read cells j := by
  induction cells with
  | nil => simp [Memory.erase]
  | cons c rest ih =>
    obtain ⟨k, v⟩ := c
    unfold Memory.erase at ih ⊢
    by_cases hk : k = i
    · subst hk
      rw [List.filter_cons_of_neg (by simp), ih, Memory.read_cons]
      by_cases hj : j = k
      · simp [hj]
      · simp [hj, Ne.symm hj]
    · rw [List.filter_cons_of_pos (by simpa using hk), Memory.read_cons, Memory.read_cons, ih]
      by_cases hj : k = j
      · subst hj; simp [hk]
      · simp [hj]

theorem Memory.read_insert_other (cells : List (Nat × BitVec w)) (i j : Nat) (v : BitVec w) (h : j ≠ i) :
    Memory.read (Memory.insert cells i v) j = Memory.read cells j := by
  induction cells with
  | nil => simp [Memory.insert, Memory.read_cons, Ne.symm h]
  | cons c rest ih =>
    obtain ⟨k, x⟩ := c
    rw [Memory.insert]
    split
    · rw [Memory.read_cons, if_neg (Ne.symm h)]
    · rw [Memory.read_cons, Memory.read_cons, ih]

theorem Memory.read_insert_same (cells : List (Nat × BitVec w)) (i : Nat) (v : BitVec w)
    (h : ∀ c ∈ cells, c.1 ≠ i) : Memory.read (Memory.insert cells i v) i = v := by
  induction cells with
  | nil => simp [Memory.insert, Memory.read_cons]
  | cons c rest ih =>
    obtain ⟨k, x⟩ := c
    rw [Memory.insert]
    split
    · rw [Memory.read_cons, if_pos rfl]
    · rw [Memory.read_cons, if_neg (h (k, x) (by simp)), ih fun c hc => h c (by simp [hc])]

/-- What a read sees after a write (R34, R36, R49 a), on any list of cells. -/
theorem Memory.read_write (cells : List (Nat × BitVec w)) (i j : Nat) (v : BitVec w) :
    Memory.read (Memory.write cells i v) j = if j = i then v else Memory.read cells j := by
  unfold Memory.write
  split
  · next h => rw [Memory.read_erase, h]; rfl
  · by_cases hj : j = i
    · subst hj
      rw [if_pos rfl, Memory.read_insert_same]
      intro c hc
      simpa using (List.mem_filter.1 hc).2
    · rw [Memory.read_insert_other _ _ _ _ hj, Memory.read_erase, if_neg hj, if_neg hj]

@[simp] theorem Memory.read_write_same (cells : List (Nat × BitVec w)) (i : Nat) (v : BitVec w) :
    Memory.read (Memory.write cells i v) i = v := by simp [Memory.read_write]

theorem Memory.read_write_other (cells : List (Nat × BitVec w)) {i j : Nat} (v : BitVec w) (h : j ≠ i) :
    Memory.read (Memory.write cells i v) j = Memory.read cells j := by simp [Memory.read_write, h]

theorem Memory.wfFrom_cons (lo k : Nat) (v : BitVec w) (rest : List (Nat × BitVec w)) :
    Memory.wfFrom lo ((k, v) :: rest) = true ↔
      lo ≤ k ∧ k < Config.memWords ∧ v ≠ Memory.unlisted ∧ Memory.wfFrom (k + 1) rest = true := by
  simp [Memory.wfFrom, Bool.and_eq_true, and_assoc]

theorem Memory.wfFrom_mono {lo hi : Nat} {cells : List (Nat × BitVec w)} (hle : lo ≤ hi)
    (h : Memory.wfFrom hi cells = true) : Memory.wfFrom lo cells = true := by
  cases cells with
  | nil => rfl
  | cons c rest =>
    obtain ⟨k, v⟩ := c
    rw [Memory.wfFrom_cons] at h ⊢
    exact ⟨hle.trans h.1, h.2⟩

theorem Memory.wfFrom_erase {lo : Nat} {cells : List (Nat × BitVec w)} (i : Nat)
    (h : Memory.wfFrom lo cells = true) : Memory.wfFrom lo (Memory.erase cells i) = true := by
  induction cells generalizing lo with
  | nil => rfl
  | cons c rest ih =>
    obtain ⟨k, v⟩ := c
    rw [Memory.wfFrom_cons] at h
    have hr := ih h.2.2.2
    unfold Memory.erase at hr ⊢
    by_cases hk : k = i
    · rw [List.filter_cons_of_neg (by simp [hk])]
      exact Memory.wfFrom_mono (by omega) hr
    · rw [List.filter_cons_of_pos (by simpa using hk), Memory.wfFrom_cons]
      exact ⟨h.1, h.2.1, h.2.2.1, hr⟩

theorem Memory.wfFrom_insert {lo i : Nat} {v : BitVec w} {cells : List (Nat × BitVec w)} (hlo : lo ≤ i)
    (hi : i < Config.memWords) (hv : v ≠ Memory.unlisted) (hne : ∀ c ∈ cells, c.1 ≠ i)
    (h : Memory.wfFrom lo cells = true) : Memory.wfFrom lo (Memory.insert cells i v) = true := by
  induction cells generalizing lo with
  | nil => rw [Memory.insert, Memory.wfFrom_cons]; exact ⟨hlo, hi, hv, rfl⟩
  | cons c rest ih =>
    obtain ⟨k, x⟩ := c
    rw [Memory.wfFrom_cons] at h
    rw [Memory.insert]
    split
    · rw [Memory.wfFrom_cons, Memory.wfFrom_cons]
      exact ⟨hlo, hi, hv, by omega, h.2⟩
    · have hk : k ≠ i := hne (k, x) (by simp)
      rw [Memory.wfFrom_cons]
      exact ⟨h.1, h.2.1, h.2.2.1, ih (by omega) (fun c hc => hne c (by simp [hc])) h.2.2.2⟩

/-- A write inside the array keeps the canonical form. -/
theorem Memory.wf_write {cells : List (Nat × BitVec w)} {i : Nat} (v : BitVec w) (hi : i < Config.memWords)
    (h : Memory.wf cells = true) : Memory.wf (Memory.write cells i v) = true := by
  unfold Memory.wf Memory.write at *
  split
  · exact Memory.wfFrom_erase i h
  · next hv =>
    refine Memory.wfFrom_insert (Nat.zero_le i) hi hv (fun c hc => ?_) (Memory.wfFrom_erase i h)
    simpa using (List.mem_filter.1 hc).2

end Cells

/-- Writing a list of bytes keeps the canonical form. -/
theorem Memory.wf_writeAll {cells : ByteMemory} (i : Nat) (bytes : List Byte) (h : Memory.wf cells = true) :
    Memory.wf (Memory.writeAll cells i bytes) = true := by
  induction bytes generalizing cells i with
  | nil => exact h
  | cons b rest ih =>
    rw [Memory.writeAll]
    split
    · next hi => exact ih (i + 1) (Memory.wf_write b hi h)
    · exact h

/-- What a read sees after a list of bytes was written: the byte of that list where there is one and the position
exists, and else what it saw before. -/
theorem Memory.read_writeAll (cells : ByteMemory) (i : Nat) (bytes : List Byte) (j : Nat) :
    Memory.read (Memory.writeAll cells i bytes) j =
      if i ≤ j ∧ j < i + bytes.length ∧ j < 65536 then bytes.getD (j - i) 0 else Memory.read cells j := by
  have hsize : Config.progBytes = 65536 := rfl
  induction bytes generalizing cells i with
  | nil => rw [if_neg (by simp; omega)]; rfl
  | cons b rest ih =>
    rw [Memory.writeAll]
    split
    · next hi =>
      rw [ih, Memory.read_write, List.length_cons]
      by_cases hj : j = i
      · subst hj
        rw [if_neg (by omega), if_pos rfl, if_pos ⟨Nat.le_refl j, by omega, hi⟩]
        simp
      · rw [if_neg hj]
        by_cases hc : i + 1 ≤ j ∧ j < i + 1 + rest.length ∧ j < 65536
        · rw [if_pos hc, if_pos (by omega), show j - i = (j - (i + 1)) + 1 by omega, List.getD_cons_succ]
        · rw [if_neg hc, if_neg (by omega)]
    · rw [if_neg (by omega)]

end Sys2Proof.Machine
end

