-- ==== Sys2Proof/Laws/Router.lean ====
section
/-! SUPPORT. What the scans of the device bus and the router's two operations can answer, said once for each. -/

namespace Sys2Proof.Machine

/-- What a claim is: the address lies between the two bounds the device reports, both included (R41). -/
theorem deviceClaims_iff (p : Platform) (now : Nat) (addr : Word) (k : Nat) (d : Device) :
    deviceClaims p now addr k d = true ↔
      (p.range k d.calls now).1.toNat ≤ addr.toNat ∧ addr.toNat ≤ (p.range k d.calls now).2.toNat := by
  rw [deviceClaims, rangeClaims, Bool.and_eq_true, decide_eq_true_iff, decide_eq_true_iff]

/-- No claim: the address lies below the minimum or above the maximum (R41). -/
theorem deviceClaims_eq_false_iff (p : Platform) (now : Nat) (addr : Word) (k : Nat) (d : Device) :
    deviceClaims p now addr k d = false ↔
      addr.toNat < (p.range k d.calls now).1.toNat ∨ (p.range k d.calls now).2.toNat < addr.toNat := by
  rw [← Bool.not_eq_true, deviceClaims_iff]; omega

section Scans

variable (p : Platform) (now : Nat) (addr v : Word)

/-- What the scan of a load does to the device at each position: a claiming one receives the call, the others do not
(R37, R38). -/
theorem scanLoad_device (k : Nat) (found : Option Word) (ds : List Device) (j : Nat) :
    (scanLoad p now addr k found ds).2[j]? =
      ds[j]?.map fun d => if deviceClaims p now addr (k + j) d then d.called (.load now addr) else d := by
  induction ds generalizing k found j with
  | nil => rfl
  | cons d ds ih =>
    rw [scanLoad]
    split <;> (next h => cases j with
      | zero => simp [h]
      | succ j => simpa [Nat.add_comm, Nat.add_left_comm] using ih (k + 1) _ j)

theorem scanLoad_length (k : Nat) (found : Option Word) (ds : List Device) :
    (scanLoad p now addr k found ds).2.length = ds.length := by
  induction ds generalizing k found with
  | nil => rfl
  | cons d ds ih => rw [scanLoad]; split <;> simp [ih]

/-- The scan of a load finds nothing exactly where nothing was found before and no device claims the address (R42). -/
theorem scanLoad_none_iff (k : Nat) (found : Option Word) (ds : List Device) :
    (scanLoad p now addr k found ds).1 = none ↔
      found = none ∧ ∀ j d, ds[j]? = some d → deviceClaims p now addr (k + j) d = false := by
  induction ds generalizing k found with
  | nil => simp [scanLoad]
  | cons d ds ih =>
    have shift : ∀ {P : Nat → Device → Prop}, (∀ j e, (d :: ds)[j]? = some e → P (k + j) e) ↔
        P k d ∧ ∀ j e, ds[j]? = some e → P (k + 1 + j) e := by
      intro P
      constructor
      · intro h
        exact ⟨h 0 d rfl, fun j e he => by simpa [Nat.add_comm, Nat.add_left_comm] using h (j + 1) e (by simpa using he)⟩
      · rintro ⟨h0, h⟩ j e he
        cases j with
        | zero => cases he; exact h0
        | succ j => simpa [Nat.add_comm, Nat.add_left_comm] using h j e (by simpa using he)
    rw [scanLoad, shift (P := fun n e => deviceClaims p now addr n e = false)]
    split
    · next h => simp [ih, h]
    · next h => simp [ih, h]

theorem scanStore_length (k : Nat) (found : Bool) (ds : List Device) :
    (scanStore p now addr v k found ds).devices.length = ds.length := by
  induction ds generalizing k found with
  | nil => rfl
  | cons d ds ih => rw [scanStore]; split <;> (try split) <;> simp [ih]

/-- What the scan of a store does to the device at each position: a claiming one receives the call, unless the scan
stopped at a failing device before it (R39). -/
theorem scanStore_device (k : Nat) (found : Bool) (ds : List Device) (j : Nat) :
    (scanStore p now addr v k found ds).devices[j]? =
      ds[j]?.map fun d =>
        if deviceClaims p now addr (k + j) d ∧ ∀ m, (scanStore p now addr v k found ds).failed = some m → k + j ≤ m
        then d.called (.store now addr v) else d := by
  induction ds generalizing k found j with
  | nil => rfl
  | cons d ds ih =>
    have later : ∀ (k : Nat) (found : Bool) (ds : List Device) m,
        (scanStore p now addr v k found ds).failed = some m → k ≤ m := by
      intro k found ds
      induction ds generalizing k found with
      | nil => intro m h; cases h
      | cons e es ih =>
        intro m h
        rw [scanStore] at h
        split at h
        · split at h
          · have := ih (k + 1) true m h; omega
          · cases h; exact Nat.le_refl k
        · have := ih (k + 1) found m h; omega
    rw [scanStore]
    split
    · next h =>
      split
      · cases j with
        | zero => simp [h]; intro m hm hlt; exact absurd (later _ _ _ _ hm) (by omega)
        | succ j => simpa [Nat.add_comm, Nat.add_left_comm] using ih (k + 1) true j
      · cases j with
        | zero => simp [h]
        | succ j => cases hd : ds[j]? <;> simp [hd]
    · next h =>
      cases j with
      | zero => simp [h]
      | succ j => simpa [Nat.add_comm, Nat.add_left_comm] using ih (k + 1) found j

/-- A failing device lies at a position of the list, counted from where the scan began. -/
theorem scanStore_failed_lt (k : Nat) (found : Bool) (ds : List Device) (m : Nat)
    (h : (scanStore p now addr v k found ds).failed = some m) : m < k + ds.length := by
  induction ds generalizing k found with
  | nil => cases h
  | cons d ds ih =>
    rw [scanStore] at h
    simp only [List.length_cons]
    split at h
    · split at h
      · have := ih _ _ h; omega
      · cases h; omega
    · have := ih _ _ h; omega

end Scans

section Routes

variable (p : Platform) (s : State) (addr v : Word)

/-- A load from region 0 (R34). -/
theorem routeLoad_memory (h : addr.toNat ≤ 0xFFFF) :
    routeLoad p s addr = .ok (Memory.read s.memory addr.toNat, s) := by
  simp [routeLoad, Config.memLast, h]

/-- A load from region 1 (R35). -/
theorem routeLoad_program (h : 0x10000 ≤ addr.toNat) (h' : addr.toNat ≤ 0x1FFFF) :
    routeLoad p s addr = .ok ((Memory.read s.program (addr.toNat - 0x10000)).setWidth 64, s) := by
  simp [routeLoad, Config.memLast, Config.progLast, Config.progBase, h', show ¬ addr.toNat ≤ 0xFFFF by omega]

/-- A load from region 2 (R37, R42). -/
theorem routeLoad_device (h : 0x20000 ≤ addr.toNat) :
    routeLoad p s addr = (match scanLoad p s.ticks addr 0 none s.devices with
      | (some v, ds) => .ok (v, { s with devices := ds })
      | (none, _) => .error (.illegalAddressLoad addr)) := by
  unfold routeLoad Config.memLast Config.progLast
  exact (if_neg (by omega)).trans (if_neg (by omega))

/-- A store to region 0 (R34). -/
theorem routeStore_memory (h : addr.toNat ≤ 0xFFFF) :
    routeStore p s addr v = .ok { s with memory := Memory.write s.memory addr.toNat v } := by
  simp [routeStore, Config.memLast, h]

/-- A store to region 1 (R36). -/
theorem routeStore_program (h : 0x10000 ≤ addr.toNat) (h' : addr.toNat ≤ 0x1FFFF) :
    routeStore p s addr v =
      .ok { s with program := Memory.write s.program (addr.toNat - 0x10000) (v.setWidth 8) } := by
  simp [routeStore, Config.memLast, Config.progLast, Config.progBase, h', show ¬ addr.toNat ≤ 0xFFFF by omega]

/-- A store to region 2 (R39, R42). -/
theorem routeStore_device (h : 0x20000 ≤ addr.toNat) :
    routeStore p s addr v = (match (scanStore p s.ticks addr v 0 false s.devices).failed with
      | some k => .error (.deviceError addr k (scanStore p s.ticks addr v 0 false s.devices).devices)
      | none =>
        if (scanStore p s.ticks addr v 0 false s.devices).found then
          .ok { s with devices := (scanStore p s.ticks addr v 0 false s.devices).devices }
        else .error (.illegalAddressStore addr)) := by
  unfold routeStore Config.memLast Config.progLast
  exact (if_neg (by omega)).trans (if_neg (by omega))

variable {p s addr v}

/-- Everything a successful load can do: nothing, or call devices. -/
theorem routeLoad_ok {w : Word} {t : State} (h : routeLoad p s addr = .ok (w, t)) :
    t = s ∨ (0x20000 ≤ addr.toNat ∧
      t = { s with devices := (scanLoad p s.ticks addr 0 none s.devices).2 }) := by
  by_cases h0 : addr.toNat ≤ 0xFFFF
  · rw [routeLoad_memory p s addr h0] at h; cases h; exact .inl rfl
  · by_cases h1 : addr.toNat ≤ 0x1FFFF
    · rw [routeLoad_program p s addr (by omega) h1] at h; cases h; exact .inl rfl
    · rw [routeLoad_device p s addr (by omega)] at h
      split at h
      · next he => cases h; exact .inr ⟨by omega, by rw [he]⟩
      · cases h

/-- The only error of a load (R42). -/
theorem routeLoad_error {f : Fault} (h : routeLoad p s addr = .error f) :
    0x20000 ≤ addr.toNat ∧ f = .illegalAddressLoad addr := by
  by_cases h0 : addr.toNat ≤ 0xFFFF
  · rw [routeLoad_memory p s addr h0] at h; cases h
  · by_cases h1 : addr.toNat ≤ 0x1FFFF
    · rw [routeLoad_program p s addr (by omega) h1] at h; cases h
    · rw [routeLoad_device p s addr (by omega)] at h
      split at h
      · cases h
      · cases h; exact ⟨by omega, rfl⟩

/-- Everything a successful store can do: one word, one byte, or calls of devices. -/
theorem routeStore_ok {t : State} (h : routeStore p s addr v = .ok t) :
    (addr.toNat ≤ 0xFFFF ∧ t = { s with memory := Memory.write s.memory addr.toNat v }) ∨
    (0x10000 ≤ addr.toNat ∧ addr.toNat ≤ 0x1FFFF ∧
      t = { s with program := Memory.write s.program (addr.toNat - 0x10000) (v.setWidth 8) }) ∨
    (0x20000 ≤ addr.toNat ∧ (scanStore p s.ticks addr v 0 false s.devices).failed = none ∧
      t = { s with devices := (scanStore p s.ticks addr v 0 false s.devices).devices }) := by
  by_cases h0 : addr.toNat ≤ 0xFFFF
  · rw [routeStore_memory p s addr v h0] at h; cases h; exact .inl ⟨h0, rfl⟩
  · by_cases h1 : addr.toNat ≤ 0x1FFFF
    · rw [routeStore_program p s addr v (by omega) h1] at h; cases h; exact .inr (.inl ⟨by omega, h1, rfl⟩)
    · rw [routeStore_device p s addr v (by omega)] at h
      split at h
      · cases h
      · next hf =>
        split at h
        · cases h; exact .inr (.inr ⟨by omega, hf, rfl⟩)
        · cases h

/-- The two errors of a store (R39, R42). -/
theorem routeStore_error {f : Fault} (h : routeStore p s addr v = .error f) :
    0x20000 ≤ addr.toNat ∧ (f = .illegalAddressStore addr ∨
      ∃ k, (scanStore p s.ticks addr v 0 false s.devices).failed = some k ∧
        f = .deviceError addr k (scanStore p s.ticks addr v 0 false s.devices).devices) := by
  by_cases h0 : addr.toNat ≤ 0xFFFF
  · rw [routeStore_memory p s addr v h0] at h; cases h
  · by_cases h1 : addr.toNat ≤ 0x1FFFF
    · rw [routeStore_program p s addr v (by omega) h1] at h; cases h
    · rw [routeStore_device p s addr v (by omega)] at h
      split at h
      · next k hk => cases h; exact ⟨by omega, .inr ⟨k, hk, rfl⟩⟩
      · split at h
        · cases h
        · cases h; exact ⟨by omega, .inl rfl⟩

end Routes

end Sys2Proof.Machine
end

