-- ==== Sys2Proof/Laws/State.lean ====
section
/-! SUPPORT. The small lemmas of the state's updates: what each of them does to each field, so that no later proof
unfolds an update. -/

namespace Sys2Proof.Machine

section SetReg

variable (s : State) (v : Word)

@[simp] theorem State.setReg_a_regA : (s.setReg .a v).regA = v := rfl
@[simp] theorem State.setReg_a_regB : (s.setReg .a v).regB = s.regB := rfl
@[simp] theorem State.setReg_a_regS : (s.setReg .a v).regS = s.regS := rfl
@[simp] theorem State.setReg_a_regX : (s.setReg .a v).regX = s.regX := rfl
@[simp] theorem State.setReg_a_memory : (s.setReg .a v).memory = s.memory := rfl
@[simp] theorem State.setReg_a_program : (s.setReg .a v).program = s.program := rfl
@[simp] theorem State.setReg_a_devices : (s.setReg .a v).devices = s.devices := rfl
@[simp] theorem State.setReg_a_ticks : (s.setReg .a v).ticks = s.ticks := rfl

@[simp] theorem State.setReg_b_regA : (s.setReg .b v).regA = s.regA := rfl
@[simp] theorem State.setReg_b_regB : (s.setReg .b v).regB = v := rfl
@[simp] theorem State.setReg_b_regS : (s.setReg .b v).regS = s.regS := rfl
@[simp] theorem State.setReg_b_regX : (s.setReg .b v).regX = s.regX := rfl
@[simp] theorem State.setReg_b_memory : (s.setReg .b v).memory = s.memory := rfl
@[simp] theorem State.setReg_b_program : (s.setReg .b v).program = s.program := rfl
@[simp] theorem State.setReg_b_devices : (s.setReg .b v).devices = s.devices := rfl
@[simp] theorem State.setReg_b_ticks : (s.setReg .b v).ticks = s.ticks := rfl

@[simp] theorem State.setReg_s_regA : (s.setReg .s v).regA = s.regA := rfl
@[simp] theorem State.setReg_s_regB : (s.setReg .s v).regB = s.regB := rfl
@[simp] theorem State.setReg_s_regS : (s.setReg .s v).regS = v := rfl
@[simp] theorem State.setReg_s_regX : (s.setReg .s v).regX = s.regX := rfl
@[simp] theorem State.setReg_s_memory : (s.setReg .s v).memory = s.memory := rfl
@[simp] theorem State.setReg_s_program : (s.setReg .s v).program = s.program := rfl
@[simp] theorem State.setReg_s_devices : (s.setReg .s v).devices = s.devices := rfl
@[simp] theorem State.setReg_s_ticks : (s.setReg .s v).ticks = s.ticks := rfl

@[simp] theorem State.setReg_x_regA : (s.setReg .x v).regA = s.regA := rfl
@[simp] theorem State.setReg_x_regB : (s.setReg .x v).regB = s.regB := rfl
@[simp] theorem State.setReg_x_regS : (s.setReg .x v).regS = s.regS := rfl
@[simp] theorem State.setReg_x_regX : (s.setReg .x v).regX = v := rfl
@[simp] theorem State.setReg_x_memory : (s.setReg .x v).memory = s.memory := rfl
@[simp] theorem State.setReg_x_program : (s.setReg .x v).program = s.program := rfl
@[simp] theorem State.setReg_x_devices : (s.setReg .x v).devices = s.devices := rfl
@[simp] theorem State.setReg_x_ticks : (s.setReg .x v).ticks = s.ticks := rfl

end SetReg

section AnyReg

variable (s : State) (r q : Reg) (v : Word)

@[simp] theorem State.setReg_memory : (s.setReg r v).memory = s.memory := by cases r <;> rfl
@[simp] theorem State.setReg_program : (s.setReg r v).program = s.program := by cases r <;> rfl
@[simp] theorem State.setReg_devices : (s.setReg r v).devices = s.devices := by cases r <;> rfl
@[simp] theorem State.setReg_ticks : (s.setReg r v).ticks = s.ticks := by cases r <;> rfl

/-- A register written reads as what was written. -/
@[simp] theorem State.reg_setReg_same : (s.setReg r v).reg r = v := by cases r <;> rfl

/-- Writing one register leaves the others. -/
theorem State.reg_setReg_other (h : q ≠ r) : (s.setReg r v).reg q = s.reg q := by
  cases r <;> cases q <;> first | rfl | exact absurd rfl h

end AnyReg

@[simp] theorem State.reg_a (s : State) : s.reg .a = s.regA := rfl
@[simp] theorem State.reg_b (s : State) : s.reg .b = s.regB := rfl
@[simp] theorem State.reg_s (s : State) : s.reg .s = s.regS := rfl
@[simp] theorem State.reg_x (s : State) : s.reg .x = s.regX := rfl

@[simp] theorem State.advance_regA (s : State) (len : Nat) : (s.advance len).regA = s.regA := rfl
@[simp] theorem State.advance_regB (s : State) (len : Nat) : (s.advance len).regB = s.regB := rfl
@[simp] theorem State.advance_regS (s : State) (len : Nat) : (s.advance len).regS = s.regS := rfl
@[simp] theorem State.advance_regX (s : State) (len : Nat) : (s.advance len).regX = s.regX + BitVec.ofNat 64 len := rfl
@[simp] theorem State.advance_memory (s : State) (len : Nat) : (s.advance len).memory = s.memory := rfl
@[simp] theorem State.advance_program (s : State) (len : Nat) : (s.advance len).program = s.program := rfl
@[simp] theorem State.advance_devices (s : State) (len : Nat) : (s.advance len).devices = s.devices := rfl
@[simp] theorem State.advance_ticks (s : State) (len : Nat) : (s.advance len).ticks = s.ticks + 1 := rfl

@[simp] theorem State.placeBytes_regA (s : State) (bytes : List Byte) : (s.placeBytes bytes).regA = s.regA := rfl
@[simp] theorem State.placeBytes_regB (s : State) (bytes : List Byte) : (s.placeBytes bytes).regB = s.regB := rfl
@[simp] theorem State.placeBytes_regS (s : State) (bytes : List Byte) : (s.placeBytes bytes).regS = s.regS := rfl
@[simp] theorem State.placeBytes_regX (s : State) (bytes : List Byte) : (s.placeBytes bytes).regX = s.placePosition := rfl
@[simp] theorem State.placeBytes_memory (s : State) (bytes : List Byte) : (s.placeBytes bytes).memory = s.memory := rfl
@[simp] theorem State.placeBytes_program (s : State) (bytes : List Byte) : (s.placeBytes bytes).program = Memory.writeAll s.program s.placePosition.toNat bytes := rfl
@[simp] theorem State.placeBytes_devices (s : State) (bytes : List Byte) : (s.placeBytes bytes).devices = s.devices := rfl
@[simp] theorem State.placeBytes_ticks (s : State) (bytes : List Byte) : (s.placeBytes bytes).ticks = s.ticks := rfl

@[simp] theorem State.afterFault_regA (s : State) (f : Fault) : (s.afterFault f).regA = s.regA := rfl
@[simp] theorem State.afterFault_regB (s : State) (f : Fault) : (s.afterFault f).regB = s.regB := rfl
@[simp] theorem State.afterFault_regS (s : State) (f : Fault) : (s.afterFault f).regS = s.regS := rfl
@[simp] theorem State.afterFault_regX (s : State) (f : Fault) : (s.afterFault f).regX = s.regX := rfl
@[simp] theorem State.afterFault_memory (s : State) (f : Fault) : (s.afterFault f).memory = s.memory := rfl
@[simp] theorem State.afterFault_program (s : State) (f : Fault) : (s.afterFault f).program = s.program := rfl
@[simp] theorem State.afterFault_ticks (s : State) (f : Fault) : (s.afterFault f).ticks = s.ticks + 1 := rfl

/-- An error other than DeviceError leaves the devices (R156). -/
theorem State.afterFault_devices (s : State) (f : Fault) (h : ∀ addr k left, f ≠ .deviceError addr k left) :
    (s.afterFault f).devices = s.devices := by
  cases f <;> first | rfl | exact absurd rfl (h _ _ _)

/-- After a DeviceError the devices are those the failed store left (R157). -/
@[simp] theorem State.afterFault_deviceError (s : State) (addr : Word) (k : Nat) (left : List Device) :
    (s.afterFault (.deviceError addr k left)).devices = left := rfl

@[simp] theorem State.new_regA (image : List Byte) (ndev : Nat) : (State.new image ndev).regA = 0 := rfl
@[simp] theorem State.new_regB (image : List Byte) (ndev : Nat) : (State.new image ndev).regB = 0 := rfl
@[simp] theorem State.new_regS (image : List Byte) (ndev : Nat) : (State.new image ndev).regS = 0 := rfl
@[simp] theorem State.new_regX (image : List Byte) (ndev : Nat) : (State.new image ndev).regX = 0 := rfl
@[simp] theorem State.new_memory (image : List Byte) (ndev : Nat) : (State.new image ndev).memory = [] := rfl
@[simp] theorem State.new_program (image : List Byte) (ndev : Nat) : (State.new image ndev).program = Memory.writeAll [] 0 image := rfl
@[simp] theorem State.new_devices (image : List Byte) (ndev : Nat) : (State.new image ndev).devices = List.replicate ndev { calls := [] } := rfl
@[simp] theorem State.new_ticks (image : List Byte) (ndev : Nat) : (State.new image ndev).ticks = 0 := rfl

/-- Writing one register changes nothing but that register. -/
theorem onlyRegs_setReg (s : State) (r : Reg) (v : Word) : OnlyRegs [r] s (s.setReg r v) :=
  ⟨fun _ h => State.reg_setReg_other s r _ v (by simpa using h), fun _ => by simp, fun _ => by simp, by simp, by simp⟩

end Sys2Proof.Machine
end

