-- ==== Sys2Proof/Laws/Ops.lean ====
section
/-! SUPPORT. What the shared operations of the meanings can answer, said once for each. -/

namespace Sys2Proof.Machine

variable {p : Platform} {s t : State}

/-- Everything a load can do when it completes: the router's value in the register, and the devices called. -/
theorem loadReg_next {r : Reg} {mode : AddrMode} (h : loadReg p r mode s = .next t) :
    ∃ v u, routeLoad p s (s.effAddr mode) = .ok (v, u) ∧ t = u.setReg r v := by
  unfold loadReg memRead at h
  split at h
  · next v u hu => cases h; exact ⟨v, u, hu, rfl⟩
  · cases h

theorem loadReg_fault {r : Reg} {mode : AddrMode} {f : Fault} (h : loadReg p r mode s = .fault f) :
    routeLoad p s (s.effAddr mode) = .error f := by
  unfold loadReg memRead raise at h
  split at h
  · cases h
  · next hu => cases h; exact hu

/-- Everything a store can do when it completes: what the router's store does. -/
theorem storeReg_next {r : Reg} {mode : AddrMode} (h : storeReg p r mode s = .next t) :
    routeStore p s (s.effAddr mode) (s.reg r) = .ok t := by
  unfold storeReg memWrite at h
  split at h
  · next hu => cases h; exact hu
  · cases h

theorem storeReg_fault {r : Reg} {mode : AddrMode} {f : Fault} (h : storeReg p r mode s = .fault f) :
    routeStore p s (s.effAddr mode) (s.reg r) = .error f := by
  unfold storeReg memWrite raise at h
  split at h
  · cases h
  · next hu => cases h; exact hu

/-- A Skip changes at most X. -/
theorem onlyRegs_skip (s : State) : OnlyRegs [.x] s s.skip := by
  unfold State.skip
  split
  · exact onlyRegs_setReg s .x _
  · exact ⟨fun _ _ => rfl, fun _ => rfl, fun _ => rfl, rfl, rfl⟩

theorem ilen_cases (b : Byte) : ilen b = 1 ∨ ilen b = 9 := by
  unfold ilen Config.immBytes
  split <;> simp

/-- Where a Skip leads, as a number: it cannot overflow (R15, R140). -/
theorem skip_regX (s : State) : s.skip.regX.toNat =
    if s.regX.toNat < 65536 then s.regX.toNat + ilen (Memory.read s.program s.regX.toNat) else s.regX.toNat := by
  unfold State.skip Config.progBytes
  split
  · rcases ilen_cases (Memory.read s.program s.regX.toNat) with h | h <;> rw [h] <;>
      simp [BitVec.toNat_add] <;> omega
  · rfl

/-- The meaning of each load is the shared load. -/
theorem execOn_load {i : Instr} {r : Reg} {mode : AddrMode} {addr : Word} (h : (i, r, mode) ∈ loadForms addr) :
    execOn p i s = loadReg p r mode s := by
  simp only [loadForms, List.mem_cons, Prod.mk.injEq, List.not_mem_nil, or_false] at h
  obtain ⟨rfl, rfl, rfl⟩ | ⟨rfl, rfl, rfl⟩ | ⟨rfl, rfl, rfl⟩ | ⟨rfl, rfl, rfl⟩ | ⟨rfl, rfl, rfl⟩ | ⟨rfl, rfl, rfl⟩ := h <;> rfl

/-- The meaning of each store is the shared store. -/
theorem execOn_store {i : Instr} {r : Reg} {mode : AddrMode} {addr : Word} (h : (i, r, mode) ∈ storeForms addr) :
    execOn p i s = storeReg p r mode s := by
  simp only [storeForms, List.mem_cons, Prod.mk.injEq, List.not_mem_nil, or_false] at h
  obtain ⟨rfl, rfl, rfl⟩ | ⟨rfl, rfl, rfl⟩ | ⟨rfl, rfl, rfl⟩ | ⟨rfl, rfl, rfl⟩ | ⟨rfl, rfl, rfl⟩ | ⟨rfl, rfl, rfl⟩ := h <;> rfl

/-- Everything an instruction can do when it completes: change only its written registers, or make one router access,
or skip. -/
theorem execOn_next {i : Instr} (h : execOn p i s = .next t) :
    OnlyRegs (writtenRegs i) s t ∨
    (∃ addr r mode v u, (i, r, mode) ∈ loadForms addr ∧
      routeLoad p s (s.effAddr mode) = .ok (v, u) ∧ t = u.setReg r v ∧ writtenRegs i = [r]) ∨
    (∃ addr r mode, (i, r, mode) ∈ storeForms addr ∧
      routeStore p s (s.effAddr mode) (s.reg r) = .ok t ∧ writtenRegs i = []) := by
  have same : ∀ rs, OnlyRegs rs s s := fun _ => ⟨fun _ _ => rfl, fun _ => rfl, fun _ => rfl, rfl, rfl⟩
  have load : ∀ (j : Instr) (r : Reg) (mode : AddrMode) (addr : Word), (j, r, mode) ∈ loadForms addr →
      writtenRegs j = [r] → execOn p j s = .next t → ∃ addr r mode v u, (j, r, mode) ∈ loadForms addr ∧
        routeLoad p s (s.effAddr mode) = .ok (v, u) ∧ t = u.setReg r v ∧ writtenRegs j = [r] := by
    intro j r mode addr hj hw hx
    rw [execOn_load hj] at hx
    obtain ⟨v, u, hu, ht⟩ := loadReg_next hx
    exact ⟨addr, r, mode, v, u, hj, hu, ht, hw⟩
  have store : ∀ (j : Instr) (r : Reg) (mode : AddrMode) (addr : Word), (j, r, mode) ∈ storeForms addr →
      writtenRegs j = [] → execOn p j s = .next t → ∃ addr r mode, (j, r, mode) ∈ storeForms addr ∧
        routeStore p s (s.effAddr mode) (s.reg r) = .ok t ∧ writtenRegs j = [] := by
    intro j r mode addr hj hw hx
    rw [execOn_store hj] at hx
    exact ⟨addr, r, mode, hj, storeReg_next hx, hw⟩
  have copy : ∀ src dst, copyReg src dst s = .next t → OnlyRegs [dst] s t := by
    intro src dst hx; cases hx; exact onlyRegs_setReg s dst _
  have lit : ∀ r v, loadLiteral r v s = .next t → OnlyRegs [r] s t := by
    intro r v hx; cases hx; exact onlyRegs_setReg s r _
  have alu : ∀ v, aluResult v s = .next t → OnlyRegs [.a] s t := by
    intro v hx; cases hx; exact onlyRegs_setReg s .a _
  have swap : ∀ r q, swapRegs r q s = .next t → OnlyRegs [r, q] s t := by
    intro r q hx; cases hx
    refine ⟨fun y hy => ?_, fun _ => by simp, fun _ => by simp, by simp, by simp⟩
    simp only [List.mem_cons, List.not_mem_nil, or_false, not_or] at hy
    rw [State.reg_setReg_other _ _ _ _ hy.2, State.reg_setReg_other _ _ _ _ hy.1]
  have skip : ∀ rel, skipWhen rel s = .next t → OnlyRegs [.x] s t := by
    intro rel hx
    unfold skipWhen at hx
    split at hx <;> cases hx
    · exact onlyRegs_skip s
    · exact same _
  cases i with
  | noOp => cases h; exact .inl (same _)
  | add => exact .inl (alu _ h)
  | subtract => exact .inl (alu _ h)
  | multiply => exact .inl (alu _ h)
  | divide =>
    simp only [execOn, execDivide] at h
    split at h
    · cases h
    · exact .inl (alu _ h)
  | copyAB | copyBA | copyAX | copyBX | copyXA | copyXB | copyAS | copyBS | copyXS | copySA | copySB | copySX =>
    exact .inl (copy _ _ h)
  | swapAB | swapAS | swapBS => exact .inl (swap _ _ h)
  | loadA imm | loadB imm | loadX imm => exact .inl (lit _ _ h)
  | skipEq | skipGrEq | skipGr | skipLe | skipLeEq => exact .inl (skip _ h)
  | loadBusA addr | loadBusB addr | loadBusX addr =>
    exact .inr (.inl (load _ _ (.absolute addr) addr (by simp [loadForms]) rfl h))
  | loadBusAS | loadBusBS | loadBusXS =>
    exact .inr (.inl (load _ _ .throughS 0 (by simp [loadForms]) rfl h))
  | pushABus addr | pushBBus addr | pushXBus addr =>
    exact .inr (.inr (store _ _ (.absolute addr) addr (by simp [storeForms]; rfl) rfl h))
  | pushABusS | pushBBusS | pushXBusS =>
    exact .inr (.inr (store _ _ .throughS 0 (by simp [storeForms]; rfl) rfl h))

/-- Every error of an instruction: Divide's, or the router's at a load or a store. -/
theorem execOn_fault {i : Instr} {f : Fault} (h : execOn p i s = .fault f) :
    (i = .divide ∧ s.regB = 0 ∧ f = .divideByZero) ∨
    (∃ addr r mode, (i, r, mode) ∈ loadForms addr ∧ routeLoad p s (s.effAddr mode) = .error f) ∨
    (∃ addr r mode, (i, r, mode) ∈ storeForms addr ∧ routeStore p s (s.effAddr mode) (s.reg r) = .error f) := by
  cases i with
  | divide =>
    simp only [execOn, execDivide] at h
    split at h
    · next hb => cases h; exact .inl ⟨rfl, hb, rfl⟩
    · cases h
  | loadBusA addr | loadBusB addr | loadBusX addr =>
    exact .inr (.inl ⟨addr, _, .absolute addr, by simp [loadForms]; rfl, loadReg_fault h⟩)
  | loadBusAS | loadBusBS | loadBusXS =>
    exact .inr (.inl ⟨0, _, .throughS, by simp [loadForms]; rfl, loadReg_fault h⟩)
  | pushABus addr | pushBBus addr | pushXBus addr =>
    exact .inr (.inr ⟨addr, _, .absolute addr, by simp [storeForms], storeReg_fault h⟩)
  | pushABusS | pushBBusS | pushXBusS =>
    exact .inr (.inr ⟨0, _, .throughS, by simp [storeForms], storeReg_fault h⟩)
  | _ => cases h

/-- The machine's own execute step is the one on its own platform. -/
theorem execOn_platform (i : Instr) (s : State) : execOn Config.platform i s = exec i s := by
  cases i <;> rfl

/-- An instruction that is neither a load nor a store asks no device, so its platform does not matter. -/
theorem execOn_core {i : Instr} (s : State) (hl : ∀ addr r mode, (i, r, mode) ∉ loadForms addr)
    (hs : ∀ addr r mode, (i, r, mode) ∉ storeForms addr) : execOn p i s = exec i s := by
  cases i with
  | loadBusA addr => exact absurd (List.mem_cons_self ..) (hl addr .a (.absolute addr))
  | loadBusB addr => exact absurd (by simp [loadForms]) (hl addr .b (.absolute addr))
  | loadBusX addr => exact absurd (by simp [loadForms]) (hl addr .x (.absolute addr))
  | loadBusAS => exact absurd (by simp [loadForms]) (hl 0 .a .throughS)
  | loadBusBS => exact absurd (by simp [loadForms]) (hl 0 .b .throughS)
  | loadBusXS => exact absurd (by simp [loadForms]) (hl 0 .x .throughS)
  | pushABus addr => exact absurd (by simp [storeForms]) (hs addr .a (.absolute addr))
  | pushBBus addr => exact absurd (by simp [storeForms]) (hs addr .b (.absolute addr))
  | pushXBus addr => exact absurd (by simp [storeForms]) (hs addr .x (.absolute addr))
  | pushABusS => exact absurd (by simp [storeForms]) (hs 0 .a .throughS)
  | pushBBusS => exact absurd (by simp [storeForms]) (hs 0 .b .throughS)
  | pushXBusS => exact absurd (by simp [storeForms]) (hs 0 .x .throughS)
  | _ => rfl

theorem exec_load {i : Instr} {r : Reg} {mode : AddrMode} {addr : Word} (h : (i, r, mode) ∈ loadForms addr) :
    exec i s = loadReg Config.platform r mode s := by
  rw [← execOn_platform, execOn_load h]

theorem exec_store {i : Instr} {r : Reg} {mode : AddrMode} {addr : Word} (h : (i, r, mode) ∈ storeForms addr) :
    exec i s = storeReg Config.platform r mode s := by
  rw [← execOn_platform, execOn_store h]

/-- `execOn_next` at the machine's own platform. -/
theorem exec_next {i : Instr} (h : exec i s = .next t) :
    OnlyRegs (writtenRegs i) s t ∨
    (∃ addr r mode v u, (i, r, mode) ∈ loadForms addr ∧
      routeLoad Config.platform s (s.effAddr mode) = .ok (v, u) ∧ t = u.setReg r v ∧ writtenRegs i = [r]) ∨
    (∃ addr r mode, (i, r, mode) ∈ storeForms addr ∧
      routeStore Config.platform s (s.effAddr mode) (s.reg r) = .ok t ∧ writtenRegs i = []) :=
  execOn_next (by rw [execOn_platform]; exact h)

end Sys2Proof.Machine
end

