-- ==== Sys2Proof/Laws/PerInstr.lean ====
section
/-! SUPPORT. The family of per-instruction statements named in LAWS.json: the encoding of each instruction begins with
its opcode byte, is as long as the length function gives that byte, and the opcode map reads that byte back as the
instruction's own format (spec/30_encoding.md R65, R66, R76). -/

namespace Sys2Proof.Laws

/-- The encoding of `i` begins with an opcode byte whose `ilen` is the encoding's length, and the map's entry for that
byte makes `i`: by itself, or from `i`'s immediate. -/
def EncodedLength.Statement (i : Instr) : Prop :=
  ∃ b operand, encode i = b :: operand ∧ (encode i).length = ilen b ∧
    ((variant b = some (.op i) ∧ operand = []) ∨
      ∃ f v, variant b = some (.opi f) ∧ i = f v ∧ operand = immediateBytes v)

theorem EncodedLength.noOp : EncodedLength.Statement .noOp :=
  ⟨_, _, rfl, rfl, .inl ⟨rfl, rfl⟩⟩

theorem EncodedLength.loadBusA (v : Word) : EncodedLength.Statement (.loadBusA v) :=
  ⟨_, _, rfl, rfl, .inr ⟨_, _, rfl, rfl, rfl⟩⟩

theorem EncodedLength.loadBusB (v : Word) : EncodedLength.Statement (.loadBusB v) :=
  ⟨_, _, rfl, rfl, .inr ⟨_, _, rfl, rfl, rfl⟩⟩

theorem EncodedLength.add : EncodedLength.Statement .add :=
  ⟨_, _, rfl, rfl, .inl ⟨rfl, rfl⟩⟩

theorem EncodedLength.subtract : EncodedLength.Statement .subtract :=
  ⟨_, _, rfl, rfl, .inl ⟨rfl, rfl⟩⟩

theorem EncodedLength.multiply : EncodedLength.Statement .multiply :=
  ⟨_, _, rfl, rfl, .inl ⟨rfl, rfl⟩⟩

theorem EncodedLength.divide : EncodedLength.Statement .divide :=
  ⟨_, _, rfl, rfl, .inl ⟨rfl, rfl⟩⟩

theorem EncodedLength.copyAB : EncodedLength.Statement .copyAB :=
  ⟨_, _, rfl, rfl, .inl ⟨rfl, rfl⟩⟩

theorem EncodedLength.copyBA : EncodedLength.Statement .copyBA :=
  ⟨_, _, rfl, rfl, .inl ⟨rfl, rfl⟩⟩

theorem EncodedLength.swapAB : EncodedLength.Statement .swapAB :=
  ⟨_, _, rfl, rfl, .inl ⟨rfl, rfl⟩⟩

theorem EncodedLength.pushABus (v : Word) : EncodedLength.Statement (.pushABus v) :=
  ⟨_, _, rfl, rfl, .inr ⟨_, _, rfl, rfl, rfl⟩⟩

theorem EncodedLength.pushBBus (v : Word) : EncodedLength.Statement (.pushBBus v) :=
  ⟨_, _, rfl, rfl, .inr ⟨_, _, rfl, rfl, rfl⟩⟩

theorem EncodedLength.loadA (v : Word) : EncodedLength.Statement (.loadA v) :=
  ⟨_, _, rfl, rfl, .inr ⟨_, _, rfl, rfl, rfl⟩⟩

theorem EncodedLength.loadB (v : Word) : EncodedLength.Statement (.loadB v) :=
  ⟨_, _, rfl, rfl, .inr ⟨_, _, rfl, rfl, rfl⟩⟩

theorem EncodedLength.loadBusX (v : Word) : EncodedLength.Statement (.loadBusX v) :=
  ⟨_, _, rfl, rfl, .inr ⟨_, _, rfl, rfl, rfl⟩⟩

theorem EncodedLength.copyAX : EncodedLength.Statement .copyAX :=
  ⟨_, _, rfl, rfl, .inl ⟨rfl, rfl⟩⟩

theorem EncodedLength.copyBX : EncodedLength.Statement .copyBX :=
  ⟨_, _, rfl, rfl, .inl ⟨rfl, rfl⟩⟩

theorem EncodedLength.pushXBus (v : Word) : EncodedLength.Statement (.pushXBus v) :=
  ⟨_, _, rfl, rfl, .inr ⟨_, _, rfl, rfl, rfl⟩⟩

theorem EncodedLength.loadX (v : Word) : EncodedLength.Statement (.loadX v) :=
  ⟨_, _, rfl, rfl, .inr ⟨_, _, rfl, rfl, rfl⟩⟩

theorem EncodedLength.copyXA : EncodedLength.Statement .copyXA :=
  ⟨_, _, rfl, rfl, .inl ⟨rfl, rfl⟩⟩

theorem EncodedLength.copyXB : EncodedLength.Statement .copyXB :=
  ⟨_, _, rfl, rfl, .inl ⟨rfl, rfl⟩⟩

theorem EncodedLength.loadBusAS : EncodedLength.Statement .loadBusAS :=
  ⟨_, _, rfl, rfl, .inl ⟨rfl, rfl⟩⟩

theorem EncodedLength.loadBusBS : EncodedLength.Statement .loadBusBS :=
  ⟨_, _, rfl, rfl, .inl ⟨rfl, rfl⟩⟩

theorem EncodedLength.copyAS : EncodedLength.Statement .copyAS :=
  ⟨_, _, rfl, rfl, .inl ⟨rfl, rfl⟩⟩

theorem EncodedLength.copyBS : EncodedLength.Statement .copyBS :=
  ⟨_, _, rfl, rfl, .inl ⟨rfl, rfl⟩⟩

theorem EncodedLength.copyXS : EncodedLength.Statement .copyXS :=
  ⟨_, _, rfl, rfl, .inl ⟨rfl, rfl⟩⟩

theorem EncodedLength.copySA : EncodedLength.Statement .copySA :=
  ⟨_, _, rfl, rfl, .inl ⟨rfl, rfl⟩⟩

theorem EncodedLength.copySB : EncodedLength.Statement .copySB :=
  ⟨_, _, rfl, rfl, .inl ⟨rfl, rfl⟩⟩

theorem EncodedLength.copySX : EncodedLength.Statement .copySX :=
  ⟨_, _, rfl, rfl, .inl ⟨rfl, rfl⟩⟩

theorem EncodedLength.swapAS : EncodedLength.Statement .swapAS :=
  ⟨_, _, rfl, rfl, .inl ⟨rfl, rfl⟩⟩

theorem EncodedLength.swapBS : EncodedLength.Statement .swapBS :=
  ⟨_, _, rfl, rfl, .inl ⟨rfl, rfl⟩⟩

theorem EncodedLength.pushABusS : EncodedLength.Statement .pushABusS :=
  ⟨_, _, rfl, rfl, .inl ⟨rfl, rfl⟩⟩

theorem EncodedLength.pushBBusS : EncodedLength.Statement .pushBBusS :=
  ⟨_, _, rfl, rfl, .inl ⟨rfl, rfl⟩⟩

theorem EncodedLength.loadBusXS : EncodedLength.Statement .loadBusXS :=
  ⟨_, _, rfl, rfl, .inl ⟨rfl, rfl⟩⟩

theorem EncodedLength.pushXBusS : EncodedLength.Statement .pushXBusS :=
  ⟨_, _, rfl, rfl, .inl ⟨rfl, rfl⟩⟩

theorem EncodedLength.skipEq : EncodedLength.Statement .skipEq :=
  ⟨_, _, rfl, rfl, .inl ⟨rfl, rfl⟩⟩

theorem EncodedLength.skipGrEq : EncodedLength.Statement .skipGrEq :=
  ⟨_, _, rfl, rfl, .inl ⟨rfl, rfl⟩⟩

theorem EncodedLength.skipGr : EncodedLength.Statement .skipGr :=
  ⟨_, _, rfl, rfl, .inl ⟨rfl, rfl⟩⟩

theorem EncodedLength.skipLe : EncodedLength.Statement .skipLe :=
  ⟨_, _, rfl, rfl, .inl ⟨rfl, rfl⟩⟩

theorem EncodedLength.skipLeEq : EncodedLength.Statement .skipLeEq :=
  ⟨_, _, rfl, rfl, .inl ⟨rfl, rfl⟩⟩

end Sys2Proof.Laws
end

