-- ==== Sys2Proof/Laws/Step.lean ====
section
/-! SUPPORT. What the fetch and the step can answer, said once for each. -/

namespace Sys2Proof.Machine

section Fetch

variable (program : ByteMemory) (pc : Word)

theorem fetchWindow_length : (fetchWindow program pc).length = min 9 (65536 - pc.toNat) := by
  simp [fetchWindow, longestInstr, Config.immBytes, Config.progBytes]

/-- The bytes of the window are those of `program` from the position on (R54, R67). -/
theorem fetchWindow_getElem (n : Nat) (h : n < (fetchWindow program pc).length) :
    (fetchWindow program pc)[n] = Memory.read program (pc.toNat + n) := by
  simp [fetchWindow]

/-- Past the array there is no byte to fetch (R69). -/
theorem fetchWindow_past (h : 65535 < pc.toNat) : fetchWindow program pc = [] := by
  apply List.eq_nil_of_length_eq_zero
  rw [fetchWindow_length]
  omega

/-- Inside the array the window begins with the opcode byte, and holds all eight operand bytes exactly where they
exist (R69). -/
theorem fetchWindow_inside (h : pc.toNat ≤ 65535) : ∃ operand,
    fetchWindow program pc = Memory.read program pc.toNat :: operand ∧
      operand.length = min 8 (65535 - pc.toNat) := by
  have hl := fetchWindow_length program pc
  cases hw : fetchWindow program pc with
  | nil => rw [hw] at hl; simp at hl; omega
  | cons b operand =>
    refine ⟨operand, ?_, ?_⟩
    · have := fetchWindow_getElem program pc 0 (by rw [hw]; simp)
      simp only [hw, List.getElem_cons_zero, Nat.add_zero] at this
      rw [this]
    · rw [hw, List.length_cons] at hl
      omega

variable {program pc}

/-- A decoded instruction has its own length, its opcode's, and lies inside the array (R15, R69). -/
theorem decodeAt_ok {i : Instr} {len : Nat} (h : decodeAt program pc = .ok (i, len)) :
    len = i.length ∧ len = ilen (Memory.read program pc.toNat) ∧ pc.toNat + len ≤ 65536 := by
  by_cases hpc : 65535 < pc.toNat
  · simp [decodeAt, fetchWindow_past program pc hpc, decodeBytes] at h
  · obtain ⟨operand, hw, hl⟩ := fetchWindow_inside program pc (by omega)
    unfold decodeAt at h
    rw [hw] at h
    obtain ⟨_, he⟩ | ⟨j, hv, he⟩ | ⟨f, hv, ⟨_, he⟩ | ⟨hlen, he⟩⟩ := decodeBytes_cases (Memory.read program pc.toNat) operand <;>
      rw [he] at h <;> cases h
    · have hj := variant_ilen _ _ hv
      exact ⟨hj.2.1.symm, hj.1.symm, by omega⟩
    · have hf := variant_ilen _ _ hv
      exact ⟨(hf.2 _).1.symm, hf.1.symm, by omega⟩

end Fetch

variable {s t : State}

/-- The machine's own step and tick are those on its own platform. -/
theorem stepOn_platform (s : State) : stepOn Config.platform s = step s := by
  unfold stepOn step
  cases decodeAt s.program s.regX with
  | error f => rfl
  | ok r => exact execOn_platform _ _

theorem tickOn_platform (s : State) : tickOn Config.platform s = tick s := by
  rw [tickOn, tick, stepOn_platform]

/-- Everything a successful step on a platform is (R80). -/
theorem stepOn_next {p : Platform} (h : stepOn p s = .next t) :
    ∃ i len, decodeAt s.program s.regX = .ok (i, len) ∧ execOn p i (s.advance len) = .next t := by
  unfold stepOn raise at h
  split at h
  · cases h
  · next i len hd => exact ⟨i, len, hd, h⟩

/-- Every error of a step on a platform comes from its fetch or from the instruction it executes (R159). -/
theorem stepOn_fault {p : Platform} {f : Fault} (h : stepOn p s = .fault f) :
    decodeAt s.program s.regX = .error f ∨
    ∃ i len, decodeAt s.program s.regX = .ok (i, len) ∧ execOn p i (s.advance len) = .fault f := by
  unfold stepOn raise at h
  split at h
  · next hd => cases h; exact .inl hd
  · next i len hd => exact .inr ⟨i, len, hd, h⟩

/-- Where the fetch gives an instruction, the step on a platform is its execute step there (R80). -/
theorem stepOn_ok {p : Platform} {i : Instr} {len : Nat} (h : decodeAt s.program s.regX = .ok (i, len)) :
    stepOn p s = execOn p i (s.advance len) := by
  unfold stepOn; rw [h]

/-- Everything a successful step is: a decoded instruction executed on the advanced state (R80). -/
theorem step_next (h : step s = .next t) :
    ∃ i len, decodeAt s.program s.regX = .ok (i, len) ∧ exec i (s.advance len) = .next t := by
  rw [← stepOn_platform] at h
  simpa only [execOn_platform] using stepOn_next h

/-- Every error of a step comes from its fetch or from the instruction it executes (R159). -/
theorem step_fault {f : Fault} (h : step s = .fault f) :
    decodeAt s.program s.regX = .error f ∨
    ∃ i len, decodeAt s.program s.regX = .ok (i, len) ∧ exec i (s.advance len) = .fault f := by
  rw [← stepOn_platform] at h
  simpa only [execOn_platform] using stepOn_fault h

section Commit

variable (f : Fault) (r : Refusal)

@[simp] theorem State.commit_next : s.commit (.next t) = (.ok, t) := rfl
@[simp] theorem State.commit_fault : s.commit (.fault f) = (.error f, s.afterFault f) := rfl
@[simp] theorem State.commit_refused : s.commit (.refused r) = (.unmodelled r, s) := rfl

end Commit

/-- The advanced X does not overflow (R15). -/
theorem advance_regX_toNat {i : Instr} {len : Nat} (h : decodeAt s.program s.regX = .ok (i, len)) :
    (s.advance len).regX.toNat = s.regX.toNat + len := by
  have hfit := (decodeAt_ok h).2.2
  simp only [State.advance_regX, BitVec.toNat_add, BitVec.toNat_ofNat]
  omega

end Sys2Proof.Machine
end

