-- ==== Sys2Proof/Laws/System.lean ====
section
/-! SUPPORT. The router's scans on a platform made of supplied devices are the loops over the devices in their present
states; and the small lemmas of a machine with its devices. -/

namespace Sys2Proof.Machine

/-- A device's state after one more call (R56). -/
theorem DeviceModel.stateAfter_append {σ : Type} (m : DeviceModel σ) (calls : List DeviceCall) (c : DeviceCall) :
    m.stateAfter (calls ++ [c]) = m.react (m.stateAfter calls) c := by
  simp [DeviceModel.stateAfter]

/-- The devices from position `k` on in their present states, `ds` being their call histories. -/
def liveFrom (attached : List AttachedDevice) (k : Nat) (ds : List Device) : List LiveDevice :=
  List.zipWith (fun a d => a.live d.calls) (attached.drop k) ds

theorem System.live_eq (m : System) : m.live = liveFrom m.attached 0 m.core.devices := rfl

section Scans

variable {attached : List AttachedDevice} (now : Nat) (addr v : Word)

theorem liveFrom_cons {k : Nat} {a : AttachedDevice} (h : attached[k]? = some a) (d : Device) (ds : List Device) :
    liveFrom attached k (d :: ds) = a.live d.calls :: liveFrom attached (k + 1) ds := by
  obtain ⟨hk, rfl⟩ := List.getElem?_eq_some_iff.1 h
  rw [liveFrom, List.drop_eq_getElem_cons hk]
  rfl

/-- Past the supplied devices there is none. -/
theorem liveFrom_past {k : Nat} (h : attached[k]? = none) (ds : List Device) : liveFrom attached k ds = [] := by
  rw [liveFrom, List.drop_eq_nil_of_le (List.getElem?_eq_none_iff.1 h)]
  rfl

theorem live_load (a : AttachedDevice) (d : Device) :
    a.live (d.called (.load now addr)).calls = (a.live d.calls).afterLoad addr := by
  simp only [AttachedDevice.live, Device.called, DeviceModel.stateAfter_append]
  rfl

theorem live_store (a : AttachedDevice) (d : Device) :
    a.live (d.called (.store now addr v)).calls = (a.live d.calls).afterStore addr v := by
  simp only [AttachedDevice.live, Device.called, DeviceModel.stateAfter_append]
  rfl

/-- A supplied device claims an address as its present state has it (R41). -/
theorem ofDevices_claims {k : Nat} {a : AttachedDevice} (h : attached[k]? = some a) (d : Device) :
    deviceClaims (Platform.ofDevices attached) now addr k d = (a.live d.calls).claims addr := by
  simp only [deviceClaims, Platform.ofDevices, h]
  rfl

theorem ofDevices_claims_past {k : Nat} (h : attached[k]? = none) (d : Device) :
    deviceClaims (Platform.ofDevices attached) now addr k d = false := by
  rw [deviceClaims_eq_false_iff]
  simp only [Platform.ofDevices, h]
  show addr.toNat < 1 ∨ 0 < addr.toNat
  omega

theorem ofDevices_loadValue {k : Nat} {a : AttachedDevice} (h : attached[k]? = some a) (d : Device) :
    (Platform.ofDevices attached).loadValue k d.calls now addr =
      (a.model.load (a.live d.calls).state addr).1 := by
  simp only [Platform.ofDevices, h]
  rfl

theorem ofDevices_storeOk {k : Nat} {a : AttachedDevice} (h : attached[k]? = some a) (d : Device) :
    (Platform.ofDevices attached).storeOk k d.calls now addr v =
      (a.model.store (a.live d.calls).state addr v).1 := by
  simp only [Platform.ofDevices, h]
  rfl

/-- The router's scan of a load is the loop of R32 over the supplied devices' present states. -/
theorem scanLoad_live (k : Nat) (found : Option Word) (ds : List Device) :
    (scanLoad (Platform.ofDevices attached) now addr k found ds).1 =
        (liveScanLoad addr found (liveFrom attached k ds)).1 ∧
      liveFrom attached k (scanLoad (Platform.ofDevices attached) now addr k found ds).2 =
        (liveScanLoad addr found (liveFrom attached k ds)).2 := by
  induction ds generalizing k found with
  | nil =>
    have hn : liveFrom attached k [] = [] := List.zipWith_nil_right
    rw [hn]
    exact ⟨rfl, hn⟩
  | cons d ds ih =>
    cases h : attached[k]? with
    | none =>
      have past := liveFrom_past (show attached[k + 1]? = none by
        rw [List.getElem?_eq_none_iff] at h ⊢; omega)
      rw [scanLoad, if_neg (by simp [ofDevices_claims_past now addr h d])]
      have := (ih (k + 1) found).1
      rw [past] at this
      rw [liveFrom_past h]
      exact ⟨this, liveFrom_past h _⟩
    | some a =>
      rw [liveFrom_cons h, scanLoad, liveScanLoad, ofDevices_claims now addr h d]
      split
      · have := ih (k + 1) (some (a.model.load (a.live d.calls).state addr).1)
        rw [ofDevices_loadValue now addr h d]
        refine ⟨this.1, ?_⟩
        simp only
        rw [liveFrom_cons h, live_load, this.2]
        rfl
      · have := ih (k + 1) found
        refine ⟨this.1, ?_⟩
        simp only
        rw [liveFrom_cons h, this.2]

/-- How the loop of R33 ends, from what the router's scan answers. -/
def StoreScan.ending (r : StoreScan) : LiveStore :=
  match r.failed with
  | some k => .failed k
  | none => if r.found then .done else .unclaimed

/-- The router's scan of a store is the loop of R33 over the supplied devices' present states. -/
theorem scanStore_live (k : Nat) (found : Bool) (ds : List Device) :
    (scanStore (Platform.ofDevices attached) now addr v k found ds).ending =
        (liveScanStore addr v k found (liveFrom attached k ds)).1 ∧
      liveFrom attached k (scanStore (Platform.ofDevices attached) now addr v k found ds).devices =
        (liveScanStore addr v k found (liveFrom attached k ds)).2 := by
  induction ds generalizing k found with
  | nil =>
    have hn : liveFrom attached k [] = [] := List.zipWith_nil_right
    rw [hn]
    exact ⟨rfl, hn⟩
  | cons d ds ih =>
    cases h : attached[k]? with
    | none =>
      have past := liveFrom_past (show attached[k + 1]? = none by
        rw [List.getElem?_eq_none_iff] at h ⊢; omega)
      have := (ih (k + 1) found).1
      rw [past] at this
      rw [scanStore, if_neg (by simp [ofDevices_claims_past now addr h d]), liveFrom_past h]
      exact ⟨this, liveFrom_past h _⟩
    | some a =>
      rw [liveFrom_cons h, scanStore, liveScanStore, ofDevices_claims now addr h d,
        ofDevices_storeOk now addr v h d]
      split
      · split
        · next hs =>
          have := ih (k + 1) true
          rw [if_pos (show (((a.live d.calls).model.store (a.live d.calls).state addr v).1) = true from hs)]
          refine ⟨this.1, ?_⟩
          simp only
          rw [liveFrom_cons h, live_store, this.2]
        · next hs =>
          rw [if_neg (show ¬ (((a.live d.calls).model.store (a.live d.calls).state addr v).1) = true from hs)]
          refine ⟨rfl, ?_⟩
          simp only
          rw [liveFrom_cons h, live_store]
      · have := ih (k + 1) found
        refine ⟨this.1, ?_⟩
        simp only
        rw [liveFrom_cons h, this.2]

end Scans

section System

variable (image : List Byte) (attached : List AttachedDevice) (m : System)

@[simp] theorem System.new_attached : (System.new image attached).attached = attached := rfl
@[simp] theorem System.new_core : (System.new image attached).core = State.new image attached.length := rfl
@[simp] theorem System.tick_attached : m.tick.2.attached = m.attached := rfl
@[simp] theorem System.tick_fst : m.tick.1 = (tickOn (Platform.ofDevices m.attached) m.core).1 := rfl
@[simp] theorem System.tick_core : m.tick.2.core = (tickOn (Platform.ofDevices m.attached) m.core).2 := rfl
@[simp] theorem System.afterTicks_zero : m.afterTicks 0 = m := rfl
@[simp] theorem System.afterTicks_succ (n : Nat) : m.afterTicks (n + 1) = m.tick.2.afterTicks n := rfl

end System

end Sys2Proof.Machine
end

