-- ==== Sys2Proof/Tests/Slice0.lean ====
section
/-! SUPPORT. The model's own tests. Expected values are those of spec/95_test_vectors.md (the vector's name stands in
each docstring) or of the rule named, worked out by hand; no value is the model's own answer. After them, one witness
for every obligation that has hypotheses. -/

namespace Sys2Proof.Tests

open Sys2Proof.Machine

/-- A machine without devices: A, B, S, X, the bytes at position X, and cells of `memory`. -/
def machine (a b s x : Word) (code : List Byte) (memory : WordMemory) : State :=
  { regA := a, regB := b, regS := s, regX := x, memory := memory
    program := Memory.writeAll [] x.toNat code, devices := [], ticks := 0 }

/-- A, B, S and X after one step. -/
def regsAfter (s : State) : Option (Word × Word × Word × Word) :=
  match step s with
  | .next t => some (t.regA, t.regB, t.regS, t.regX)
  | _ => none

/-- A word of `memory` and X after one step. -/
def wordAfter (s : State) (i : Nat) : Option (Word × Word) :=
  match step s with
  | .next t => some (Memory.read t.memory i, t.regX)
  | _ => none

/-- A byte of `program` and X after one step. -/
def byteAfter (s : State) (p : Nat) : Option (Byte × Word) :=
  match step s with
  | .next t => some (Memory.read t.program p, t.regX)
  | _ => none

/-- The error of one step. -/
def errorOf (s : State) : Option Fault :=
  match step s with
  | .fault f => some f
  | _ => none

/-! ## WellFormed -/

/-- Vector E10: the last place a nine-byte instruction fits. -/
theorem test_fitsAt_last_place : (Instr.loadA 5).fitsAt 65527 = true := by decide

/-- Vector E9: a nine-byte instruction at 65528 does not fit. -/
theorem test_fitsAt_refuses : (Instr.loadA 5).fitsAt 65528 = false := by decide

/-- R69: nothing fits past the image. -/
theorem test_fitsAt_refuses_one_byte : Instr.add.fitsAt 65536 = false := by decide

/-- R173: an image of 65537 bytes is refused. -/
theorem test_imageFits_refuses : imageFits (List.replicate 65537 0) = false := by
  simp only [imageFits, List.length_replicate]; decide

/-! ## Decode: one word written out for every constructor (R65, R62, R63) -/

theorem decode_noOp : decodeBytes [0] = .ok (.noOp, 1) := by decide

theorem decode_loadBusA : decodeBytes [0x01, 0, 0, 0, 0, 0, 0, 0, 0x05] = .ok (.loadBusA 5, 9) := by
  decide

theorem decode_loadBusB : decodeBytes [0x02, 0, 0, 0, 0, 0, 0, 0xFF, 0xFF] = .ok (.loadBusB 0xFFFF, 9) := by
  decide

theorem decode_add : decodeBytes [0x03] = .ok (.add, 1) := by decide

theorem decode_subtract : decodeBytes [0x04] = .ok (.subtract, 1) := by decide

theorem decode_multiply : decodeBytes [0x05] = .ok (.multiply, 1) := by decide

theorem decode_divide : decodeBytes [0x06] = .ok (.divide, 1) := by decide

theorem decode_copyAB : decodeBytes [0x07] = .ok (.copyAB, 1) := by decide

theorem decode_copyBA : decodeBytes [0x08] = .ok (.copyBA, 1) := by decide

theorem decode_swapAB : decodeBytes [0x09] = .ok (.swapAB, 1) := by decide

theorem decode_pushABus : decodeBytes [0x0A, 0, 0, 0, 0, 0, 0x01, 0, 0] = .ok (.pushABus 0x10000, 9) := by
  decide

theorem decode_pushBBus : decodeBytes [0x0B, 0, 0, 0, 0, 0, 0x01, 0xFF, 0xFF] = .ok (.pushBBus 0x1FFFF, 9) := by
  decide

theorem decode_loadA :
    decodeBytes [0x0C, 0x01, 0x02, 0x03, 0x04, 0x05, 0x06, 0x07, 0x08] = .ok (.loadA 0x0102030405060708, 9) := by
  decide

theorem decode_loadB :
    decodeBytes [0x0D, 0xFF, 0xFF, 0xFF, 0xFF, 0xFF, 0xFF, 0xFF, 0xFF] = .ok (.loadB 0xFFFFFFFFFFFFFFFF, 9) := by
  decide

theorem decode_loadBusX : decodeBytes [0x0E, 0x05, 0, 0, 0, 0, 0, 0, 0] = .ok (.loadBusX 0x0500000000000000, 9) := by
  decide

theorem decode_copyAX : decodeBytes [0x0F] = .ok (.copyAX, 1) := by decide

theorem decode_copyBX : decodeBytes [0x10] = .ok (.copyBX, 1) := by decide

theorem decode_pushXBus : decodeBytes [0x11, 0x80, 0, 0, 0, 0, 0, 0, 0] = .ok (.pushXBus 0x8000000000000000, 9) := by
  decide

theorem decode_loadX : decodeBytes [0x12, 0, 0, 0, 0, 0, 0, 0, 0x24] = .ok (.loadX 36, 9) := by
  decide

theorem decode_copyXA : decodeBytes [0x13] = .ok (.copyXA, 1) := by decide

theorem decode_copyXB : decodeBytes [0x14] = .ok (.copyXB, 1) := by decide

theorem decode_loadBusAS : decodeBytes [0x15] = .ok (.loadBusAS, 1) := by decide

theorem decode_loadBusBS : decodeBytes [0x16] = .ok (.loadBusBS, 1) := by decide

theorem decode_copyAS : decodeBytes [0x17] = .ok (.copyAS, 1) := by decide

theorem decode_copyBS : decodeBytes [0x18] = .ok (.copyBS, 1) := by decide

theorem decode_copyXS : decodeBytes [0x19] = .ok (.copyXS, 1) := by decide

theorem decode_copySA : decodeBytes [0x1A] = .ok (.copySA, 1) := by decide

theorem decode_copySB : decodeBytes [0x1B] = .ok (.copySB, 1) := by decide

theorem decode_copySX : decodeBytes [0x1C] = .ok (.copySX, 1) := by decide

theorem decode_swapAS : decodeBytes [0x1D] = .ok (.swapAS, 1) := by decide

theorem decode_swapBS : decodeBytes [0x1E] = .ok (.swapBS, 1) := by decide

theorem decode_pushABusS : decodeBytes [0x1F] = .ok (.pushABusS, 1) := by decide

theorem decode_pushBBusS : decodeBytes [0x20] = .ok (.pushBBusS, 1) := by decide

theorem decode_loadBusXS : decodeBytes [0x21] = .ok (.loadBusXS, 1) := by decide

theorem decode_pushXBusS : decodeBytes [0x22] = .ok (.pushXBusS, 1) := by decide

theorem decode_skipEq : decodeBytes [0x23] = .ok (.skipEq, 1) := by decide

theorem decode_skipGrEq : decodeBytes [0x24] = .ok (.skipGrEq, 1) := by decide

theorem decode_skipGr : decodeBytes [0x25] = .ok (.skipGr, 1) := by decide

theorem decode_skipLe : decodeBytes [0x26] = .ok (.skipLe, 1) := by decide

theorem decode_skipLeEq : decodeBytes [0x27] = .ok (.skipLeEq, 1) := by decide

/-- Vector E3: the first unrecognised byte. -/
theorem decode_rejects_40 : decodeBytes [0x28] = .error (.illegalInstruction 0x28) := by decide

/-- Vector E4. -/
theorem decode_rejects_255 :
    decodeBytes [0xFF, 0, 0, 0, 0, 0, 0, 0, 0] = .error (.illegalInstruction 0xFF) := by decide

/-- Vector E5: the opcode is classified before operand room is checked. -/
theorem decode_rejects_200_before_room : decodeBytes [0xC8] = .error (.illegalInstruction 0xC8) := by decide

/-- Vector I10: an operand byte is missing. -/
theorem decode_rejects_truncated : decodeBytes [0x0C, 0, 0, 0, 0, 0, 0, 0] = .error .outOfInstructions := by decide

/-- R69: no byte at all. -/
theorem decode_rejects_nothing : decodeBytes [] = .error .outOfInstructions := by decide

/-- Program P3, position 9. -/
theorem encode_pushABus : encode (.pushABus 0x10026) = [0x0A, 0, 0, 0, 0, 0, 1, 0, 0x26] := by decide

/-- A row of one byte. -/
theorem tableWord_one_byte : decodeTableWord 8 0x04 = some .subtract := by decide

/-- A row of nine bytes: byte 8 is bits 71..64. -/
theorem tableWord_nine_bytes : decodeTableWord 72 0x24000000000000000B = some (.pushBBus 0x24) := by decide

/-- No row has opcode byte 40. -/
theorem tableWord_rejects : decodeTableWord 8 0x28 = none := by decide

/-! ## One step of each instruction -/

/-- Vector E1. -/
theorem test_noOp : 
    regsAfter (machine 0 0 0 7 [0] []) = some (0, 0, 0, 8) := by decide

/-- Vector E2. -/
theorem test_noOp_last_byte : 
    regsAfter (machine 0 0 0 0xFFFF [0] []) = some (0, 0, 0, 0x10000) := by decide

/-- Vector A1. -/
theorem test_add : 
    regsAfter (machine 2 3 0 100 [0x03] []) = some (5, 3, 0, 101) := by decide

/-- Vector A2. -/
theorem test_add_wraps : 
    regsAfter (machine 0xFFFFFFFFFFFFFFFF 1 0 100 [0x03] []) = some (0, 1, 0, 101) := by decide

/-- Vector A5. -/
theorem test_subtract : 
    regsAfter (machine 5 3 0 100 [0x04] []) = some (2, 3, 0, 101) := by decide

/-- Vector A6. -/
theorem test_subtract_wraps : 
    regsAfter (machine 3 5 0 100 [0x04] []) = some (0xFFFFFFFFFFFFFFFE, 5, 0, 101) := by decide

/-- Vector A13. -/
theorem test_multiply : 
    regsAfter (machine 0xDEADBEEF 0xCAFEBABE 0 100 [0x05] []) =
      some (0xB092AB7B88CF5B62, 0xCAFEBABE, 0, 101) := by decide

/-- Vector A14. -/
theorem test_multiply_wraps : 
    regsAfter (machine 0x123456789ABCDEF0 16 0 100 [0x05] []) = some (0x23456789ABCDEF00, 16, 0, 101) := by decide

/-- Vector A17. -/
theorem test_divide_unsigned : 
    regsAfter (machine 0xFFFFFFFFFFFFFFFF 2 0 100 [0x06] []) = some (0x7FFFFFFFFFFFFFFF, 2, 0, 101) := by decide

/-- Vector A20. -/
theorem test_divide_by_zero : errorOf (machine 9 0 0 100 [0x06] []) = some .divideByZero := by decide

/-- Vector C1. -/
theorem test_copyAB : 
    regsAfter (machine 17 34 51 100 [0x07] []) = some (17, 17, 51, 101) := by decide

/-- Vector C2. -/
theorem test_copyBA : 
    regsAfter (machine 17 34 51 100 [0x08] []) = some (34, 34, 51, 101) := by decide

/-- Vector C3. -/
theorem test_swapAB : 
    regsAfter (machine 17 34 51 100 [0x09] []) = some (34, 17, 51, 101) := by decide

/-- Vector C4. -/
theorem test_copyAX : 
    regsAfter (machine 17 34 51 100 [0x0F] []) = some (17, 34, 51, 17) := by decide

/-- Vector C5. -/
theorem test_copyBX : 
    regsAfter (machine 17 34 51 100 [0x10] []) = some (17, 34, 51, 34) := by decide

/-- Vector C6. -/
theorem test_copyXA : 
    regsAfter (machine 17 34 51 100 [0x13] []) = some (101, 34, 51, 101) := by decide

/-- Vector C7. -/
theorem test_copyXB : 
    regsAfter (machine 17 34 51 100 [0x14] []) = some (17, 101, 51, 101) := by decide

/-- Vector C8. -/
theorem test_copyAS : 
    regsAfter (machine 17 34 51 100 [0x17] []) = some (17, 34, 17, 101) := by decide

/-- Vector C9. -/
theorem test_copyBS : 
    regsAfter (machine 17 34 51 100 [0x18] []) = some (17, 34, 34, 101) := by decide

/-- Vector C10. -/
theorem test_copyXS : 
    regsAfter (machine 17 34 51 100 [0x19] []) = some (17, 34, 101, 101) := by decide

/-- Vector C11. -/
theorem test_copySA : 
    regsAfter (machine 17 34 51 100 [0x1A] []) = some (51, 34, 51, 101) := by decide

/-- Vector C12. -/
theorem test_copySB : 
    regsAfter (machine 17 34 51 100 [0x1B] []) = some (17, 51, 51, 101) := by decide

/-- Vector C13. -/
theorem test_copySX : 
    regsAfter (machine 17 34 51 100 [0x1C] []) = some (17, 34, 51, 51) := by decide

/-- Vector C14. -/
theorem test_swapAS : 
    regsAfter (machine 17 34 51 100 [0x1D] []) = some (51, 34, 17, 101) := by decide

/-- Vector C15. -/
theorem test_swapBS : 
    regsAfter (machine 17 34 51 100 [0x1E] []) = some (17, 51, 34, 101) := by decide

/-- Vector C17: the X read is 65536. -/
theorem test_copyXA_last_byte : 
    regsAfter (machine 1 2 3 0xFFFF [0x13] []) = some (0x10000, 2, 3, 0x10000) := by decide

/-- Vector I2. -/
theorem test_loadA : 
    regsAfter (machine 9 8 7 100 [0x0C, 0x01, 0x02, 0x03, 0x04, 0x05, 0x06, 0x07, 0x08] []) =
      some (0x0102030405060708, 8, 7, 109) := by decide

/-- Vector I9. -/
theorem test_loadA_last_place : 
    regsAfter (machine 0 0 0 0xFFF7 [0x0C, 0, 0, 0, 0, 0, 0, 0, 0x05] []) = some (5, 0, 0, 0x10000) := by decide

/-- Vector I3. -/
theorem test_loadB : 
    regsAfter (machine 9 8 7 100 [0x0D, 0xFF, 0xFF, 0xFF, 0xFF, 0xFF, 0xFF, 0xFF, 0xFF] []) =
      some (9, 0xFFFFFFFFFFFFFFFF, 7, 109) := by decide

/-- Vector I5. -/
theorem test_loadX : 
    regsAfter (machine 9 8 7 100 [0x12, 0, 0, 0, 0, 0, 0, 0, 0x24] []) = some (9, 8, 7, 36) := by decide

/-- Vector B1. -/
theorem test_loadBusA : 
    regsAfter (machine 0 0 0 100 [0x01, 0, 0, 0, 0, 0, 0, 0, 0x05] [(5, 0x1234567890ABCDEF)]) =
      some (0x1234567890ABCDEF, 0, 0, 109) := by decide

/-- Vector B5: region 1, the instruction's own opcode byte. -/
theorem test_loadBusA_own_opcode : 
    regsAfter (machine 7 0 0 100 [0x01, 0, 0, 0, 0, 0, 0x01, 0, 0x64] []) = some (1, 0, 0, 109) := by decide

/-- Vector B2. -/
theorem test_loadBusB : 
    regsAfter (machine 0 0 0 100 [0x02, 0, 0, 0, 0, 0, 0, 0xFF, 0xFF] [(0xFFFF, 0xFFFFFFFFFFFFFFFF)]) =
      some (0, 0xFFFFFFFFFFFFFFFF, 0, 109) := by decide

/-- Vector B9. -/
theorem test_loadBusB_unmapped : 
    errorOf (machine 0 7 0 100 [0x02, 0xFF, 0xFF, 0xFF, 0xFF, 0xFF, 0xFF, 0xFF, 0xFF] []) =
      some (.illegalAddressLoad 0xFFFFFFFFFFFFFFFF) := by decide

/-- Vector B6. -/
theorem test_loadBusX : 
    regsAfter (machine 0 0 0 100 [0x0E, 0, 0, 0, 0, 0, 0, 0, 0x05] [(5, 300)]) = some (0, 0, 0, 300) := by decide

/-- Vector B10. -/
theorem test_pushABus : 
    wordAfter (machine 5 0 0 9 [0x0A, 0, 0, 0, 0, 0, 0, 0, 0] []) 0 = some (5, 18) := by decide

/-- Vector B13. -/
theorem test_pushABus_truncates : 
    byteAfter (machine 0x1234 0 0 100 [0x0A, 0, 0, 0, 0, 0, 0x01, 0, 0] []) 0 = some (0x34, 109) := by decide

/-- Vector B12. -/
theorem test_pushBBus : 
    wordAfter (machine 1 0xBEEF 0 100 [0x0B, 0, 0, 0, 0, 0, 0, 0, 0x10] []) 16 = some (0xBEEF, 109) := by decide

/-- Vector B14. -/
theorem test_pushBBus_last_byte : 
    byteAfter (machine 0 511 0 100 [0x0B, 0, 0, 0, 0, 0, 0x01, 0xFF, 0xFF] []) 0xFFFF = some (0xFF, 109) := by decide

/-- Vector B16. -/
theorem test_pushXBus : 
    wordAfter (machine 0 0 0 300 [0x11, 0, 0, 0, 0, 0, 0, 0, 0x10] []) 16 = some (309, 309) := by decide

/-- Vector B17. -/
theorem test_pushXBus_program : 
    byteAfter (machine 0 0 0 300 [0x11, 0, 0, 0, 0, 0, 0x01, 0, 0] []) 0 = some (0x35, 309) := by decide

/-- Vector B20. -/
theorem test_loadBusAS : 
    regsAfter (machine 0 0 100 100 [0x15] [(100, 77)]) = some (77, 0, 100, 101) := by decide

/-- Position 100 holds 16 hex, LoadBusBS; S is its router address (R133, R35). -/
theorem test_loadBusBS : 
    regsAfter (machine 0 0 0x10064 100 [0x16] []) = some (0, 0x16, 0x10064, 101) := by decide

/-- Vector B22. -/
theorem test_loadBusXS : 
    regsAfter (machine 0 0 8 100 [0x21] [(8, 0x4000)]) = some (0, 0, 8, 0x4000) := by decide

/-- Vector B25. -/
theorem test_pushABusS : 
    wordAfter (machine 7 0 100 100 [0x1F] []) 100 = some (7, 101) := by decide

/-- Vector B26. -/
theorem test_pushBBusS : 
    byteAfter (machine 0 0x3FF 0x10000 100 [0x20] []) 0 = some (0xFF, 101) := by decide

/-- Vector B27. -/
theorem test_pushXBusS : 
    wordAfter (machine 0 0 7 0 [0x22] []) 7 = some (1, 1) := by decide

/-- Vector B30. -/
theorem test_pushXBusS_unmapped : 
    errorOf (machine 0 0 0xFFFFFFFFFFFFFFFF 0 [0x22] []) = some (.illegalAddressStore 0xFFFFFFFFFFFFFFFF) := by decide

/-- Vector K2. -/
theorem test_skipEq_skips : 
    regsAfter (machine 5 5 0 10 [0x23, 0x0C] []) = some (5, 5, 0, 20) := by decide

/-- Vector K3. -/
theorem test_skipEq_falls_through : 
    regsAfter (machine 6 5 0 10 [0x23, 0x0C] []) = some (6, 5, 0, 11) := by decide

/-- Vector K5. -/
theorem test_skipGrEq_skips : 
    regsAfter (machine 5 5 0 10 [0x24, 0x0C] []) = some (5, 5, 0, 20) := by decide

/-- Vector K4. -/
theorem test_skipGrEq_falls_through : 
    regsAfter (machine 3 5 0 10 [0x24, 0x0C] []) = some (3, 5, 0, 11) := by decide

/-- Vector K9. -/
theorem test_skipGr_skips : 
    regsAfter (machine 6 5 0 10 [0x25, 0x0C] []) = some (6, 5, 0, 20) := by decide

/-- Vector K8. -/
theorem test_skipGr_falls_through : 
    regsAfter (machine 5 5 0 10 [0x25, 0x0C] []) = some (5, 5, 0, 11) := by decide

/-- Vector K10. -/
theorem test_skipLe_skips : 
    regsAfter (machine 3 5 0 10 [0x26, 0x0C] []) = some (3, 5, 0, 20) := by decide

/-- Vector K11. -/
theorem test_skipLe_falls_through : 
    regsAfter (machine 5 5 0 10 [0x26, 0x0C] []) = some (5, 5, 0, 11) := by decide

/-- Vector K14. -/
theorem test_skipLeEq_skips : 
    regsAfter (machine 5 5 0 10 [0x27, 0x0C] []) = some (5, 5, 0, 20) := by decide

/-- Vector K15. -/
theorem test_skipLeEq_falls_through : 
    regsAfter (machine 6 5 0 10 [0x27, 0x0C] []) = some (6, 5, 0, 11) := by decide

/-! ## Fetch and skip corners -/

/-- Vector K17. -/
theorem test_skip_unrecognised_byte : 
    regsAfter (machine 0 0 0 10 [0x23, 0xFF] []) = some (0, 0, 0, 12) := by decide

/-- Vector K23: nothing to skip. -/
theorem test_skip_at_last_byte : 
    regsAfter (machine 0 0 0 0xFFFF [0x23] []) = some (0, 0, 0, 0x10000) := by decide

/-- Vector K24: the largest X a Skip leaves. -/
theorem test_skip_past_the_end : 
    regsAfter (machine 0 0 0 0xFFFE [0x23, 0x0C] []) = some (0, 0, 0, 0x10008) := by decide

/-- Vector E3. -/
theorem test_illegal_instruction : errorOf (machine 1 2 3 10 [0x28] []) =
      some (.illegalInstruction 0x28 10) := by decide

/-- Vector E5. -/
theorem test_illegal_before_room : 
    errorOf (machine 0 0 0 0xFFF8 [0xC8] []) = some (.illegalInstruction 0xC8 0xFFF8) := by decide

/-- Vector E7: no read of region 1. -/
theorem test_past_the_image : errorOf (machine 0 0 0 0x10005 [] []) = some (.outOfInstructions 0x10005) := by decide

/-- Vector E9. -/
theorem test_operand_past_the_image : 
    errorOf (machine 0 0 0 0xFFF8 [0x0C] []) = some (.outOfInstructions 0xFFF8) := by decide

/-- Vector X1. -/
theorem test_error_leaves_state : 
    (tick (machine 9 0 0 9 [0x06] [])).2.regX = 9 ∧ (tick (tick (machine 9 0 0 9 [0x06] [])).2).1 = .error .divideByZero := by decide

/-- Scenario S1: LoadA 5, then PushABus 0. -/
def scenario : State :=
  State.new [12, 0, 0, 0, 0, 0, 0, 0, 5, 10, 0, 0, 0, 0, 0, 0, 0, 0] 0

/-- Scenario S1: after two ticks `memory[0]` is 5 and X is 18. -/
theorem test_scenario : Memory.read (scenario.afterTicks 2).memory 0 = 5 ∧ (scenario.afterTicks 2).regX = 18 := by
  decide

/-- S2: on a fresh machine the byte 3 is Add, and A remains 0. -/
theorem test_fresh_add : regsAfter (State.new [3] 0) = some (0, 0, 0, 1) := by decide

/-- S3: on a fresh machine the byte 6 fails with DivideByZero. -/
theorem test_fresh_divide : errorOf (State.new [6] 0) = some .divideByZero := by decide

/-- The hook's word runs as the first instruction after reset: LoadA 5. -/
theorem test_withFetchWord : regsAfter (State.reset.withFetchWord 72 0x05000000000000000C) = some (5, 0, 0, 9) := by
  decide

/-! ## Devices of vectors V1 to V11 -/

/-- A device that remembers the last value stored, with a fixed range; `ok` says whether its stores succeed. -/
def cellDevice (range : Word × Word) (ok : Bool) (initial : Word) : DeviceModel Word :=
  { init := initial, range := fun _ => range, load := fun st _ => (st, st)
    store := fun st _ v => (ok, if ok then v else st) }

/-- V1 to V4: two disjoint devices. -/
def disjoint : Platform :=
  Platform.ofModels fun k => if k = 0 then cellDevice (0x20000, 0x2000F) true 0 else cellDevice (0x30000, 0x3000F) true 0

/-- V5 to V8: two overlapping devices whose first values are 11 and 22 hex. -/
def overlapping : Platform :=
  Platform.ofModels fun k =>
    if k = 0 then cellDevice (0x20000, 0x200FF) true 0x11 else cellDevice (0x20080, 0x2017F) true 0x22

/-- V9: three devices of one range, the second of which fails. -/
def secondFails : Platform :=
  Platform.ofModels fun k => cellDevice (0x20000, 0x200FF) (k ≠ 1) 0

/-- A machine with some devices that have not been called. -/
def withDevices (n : Nat) : State :=
  State.new [] n

/-- The value a routed load returns and the calls each device has then received. -/
def loadOn (p : Platform) (s : State) (addr : Word) : Option (Word × List (List DeviceCall)) :=
  match routeLoad p s addr with
  | .ok (v, t) => some (v, t.devices.map Device.calls)
  | .error _ => none

/-- The calls each device has received after a routed store. -/
def storeOn (p : Platform) (s : State) (addr v : Word) : Option (List (List DeviceCall)) :=
  match routeStore p s addr v with
  | .ok t => some (t.devices.map Device.calls)
  | .error _ => none

/-- Vector V1: only the claiming device is called, with the absolute address and the whole value. -/
theorem test_store_dispatch : storeOn disjoint (withDevices 2) 0x20005 0xAB = some [[.store 0 0x20005 0xAB], []] := by
  decide

/-- Vector V3: one past the inclusive maximum is claimed by no device. -/
theorem test_load_past_range : loadOn disjoint (withDevices 2) 0x20010 = none := by decide

/-- Vector V4: the maximum is inside the range. -/
theorem test_load_at_max : loadOn disjoint (withDevices 2) 0x2000F = some (0, [[.load 0 0x2000F], []]) := by decide

/-- Vector V5: every claiming device is stored to. -/
theorem test_store_overlap : storeOn overlapping (withDevices 2) 0x20090 7 =
    some [[.store 0 0x20090 7], [.store 0 0x20090 7]] := by decide

/-- Vector V6: every claiming device is read, and the last one's value is the result. -/
theorem test_load_overlap : loadOn overlapping (withDevices 2) 0x20090 =
    some (0x22, [[.load 0 0x20090], [.load 0 0x20090]]) := by decide

/-- Vector V9: the scan stops at the failing device; the one before it keeps the call. -/
theorem test_store_fails : (routeStore secondFails (withDevices 3) 0x20001 7).map (fun _ => ()) =
    .error (.deviceError 0x20001 1 [⟨[.store 0 0x20001 7]⟩, ⟨[.store 0 0x20001 7]⟩, ⟨[]⟩]) := by decide

/-- Vector V10: a device whose range dips below 0x20000 is not consulted there. -/
theorem test_builtin_region_first :
    storeOn (Platform.ofModels fun _ => cellDevice (0x30, 0x2FFFF) true 0) (withDevices 1) 0x40 9 = some [[]] := by decide

/-- Vector V11: an inverted range claims nothing. -/
theorem test_inverted_range :
    loadOn (Platform.ofModels fun _ => cellDevice (0x20010, 0x20000) true 0) (withDevices 1) 0x20008 = none := by decide

/-! ## Ticks of a machine built with its devices -/

/-- V1 and V2: PushABus 0x20005 and then LoadBusB 0x20005, with A = 0xAB, on D0 and D1, the latter with a state of two
words that counts its calls. -/
def twoDevices : System :=
  { attached := [⟨Word, cellDevice (0x20000, 0x2000F) true 0⟩,
      ⟨Word × Nat,
        { init := (0, 0), range := fun _ => (0x30000, 0x3000F)
          load := fun st _ => (st.1, (st.1, st.2 + 1)), store := fun st _ v => (true, (v, st.2 + 1)) }⟩]
    core := { machine 0xAB 0 0 9 [0x0A, 0, 0, 0, 0, 0, 2, 0, 5, 0x02, 0, 0, 0, 0, 0, 2, 0, 5] [] with
      devices := [⟨[]⟩, ⟨[]⟩] } }

/-- Vector V1 as a tick: only D0 is called. -/
theorem test_tick_stores_to_device : twoDevices.tick.1 = .ok ∧ twoDevices.tick.2.core.regX = 18 ∧
    twoDevices.tick.2.core.devices = [⟨[.store 1 0x20005 0xAB]⟩, ⟨[]⟩] := by decide

/-- Vector V2 as a tick: the value D0 holds. -/
theorem test_tick_loads_from_device : twoDevices.tick.2.tick.1 = .ok ∧ twoDevices.tick.2.tick.2.core.regB = 0xAB ∧
    twoDevices.tick.2.tick.2.core.regX = 27 := by decide

/-- V9: three devices of one range, the second of which fails, and PushABus 0x20001 with A = 7. -/
def failingSystem : System :=
  { attached := [⟨Word, cellDevice (0x20000, 0x200FF) true 0⟩, ⟨Word, cellDevice (0x20000, 0x200FF) false 0⟩,
      ⟨Word, cellDevice (0x20000, 0x200FF) true 0⟩]
    core := { machine 7 0 0 9 [0x0A, 0, 0, 0, 0, 0, 2, 0, 1] [] with devices := [⟨[]⟩, ⟨[]⟩, ⟨[]⟩] } }

/-- Vector V9 as a tick: DeviceError of position 1, X and A as before, and the third device not called. -/
theorem test_tick_device_error :
    failingSystem.tick.1 =
      .error (.deviceError 0x20001 1 [⟨[.store 1 0x20001 7]⟩, ⟨[.store 1 0x20001 7]⟩, ⟨[]⟩]) ∧
    failingSystem.tick.2.core.regX = 9 ∧ failingSystem.tick.2.core.regA = 7 ∧
    failingSystem.tick.2.core.devices = [⟨[.store 1 0x20001 7]⟩, ⟨[.store 1 0x20001 7]⟩, ⟨[]⟩] := by decide

/-! ## Witnesses: states and operands that meet the hypotheses of the obligations, each clause at a boundary -/

/-- The machine whose next instruction is the one byte `b`, at position 100, with A = 9, B = 4, S = 0xFFFF. -/
def nextByte (b : Byte) : State :=
  machine 9 4 0xFFFF 100 [b] []

/-- An image of 65536 bytes: LoadA 5 and then zeros. -/
def fullImage : List Byte :=
  encode (.loadA 5) ++ List.replicate 65527 0

theorem fullImage_length : fullImage.length = 65536 := by
  rw [fullImage, List.length_append, List.length_replicate]; rfl

/-- The positions at both ends of the array. -/
theorem witness_ConstructionGivesResetValues :
    fullImage.length = 65536 ∧ 0 < fullImage.length ∧ 65535 < fullImage.length ∧ 65535 < 65536 := by
  rw [fullImage_length]; decide

theorem witness_FirstTickRunsInstructionAtPositionZero :
    fullImage.length = 65536 ∧ fullImage.take (Instr.loadA 5).length = encode (.loadA 5) :=
  ⟨fullImage_length, List.take_left' rfl⟩

theorem witness_EncodeOfDecodeIsIdentity :
    decodeBytes [12, 0, 0, 0, 0, 0, 0, 0, 5, 3] = .ok (.loadA 5, 9) := by decide

/-- LoadA 5 at the last place it fits, Add at the last byte. -/
theorem witness_PlacedEncodingDecodesAtItsPosition :
    ((Instr.loadA 5).fitsAt (65527 : Word).toNat = true ∧ ∀ n (h : n < (encode (.loadA 5)).length),
      Memory.read (machine 0 0 0 65527 (encode (.loadA 5)) []).program ((65527 : Word).toNat + n) =
        (encode (.loadA 5))[n]) ∧
    (Instr.add.fitsAt (65535 : Word).toNat = true ∧ ∀ n (h : n < (encode .add).length),
      Memory.read [(65535, 3)] ((65535 : Word).toNat + n) = (encode .add)[n]) := by decide

theorem witness_ImmediateIsBigEndian :
    (65527 : Word).toNat ≤ 65527 ∧
    (Memory.read [(65527, (12 : Byte))] (65527 : Word).toNat).toNat ∈ [1, 2, 10, 11, 12, 13, 14, 17, 18] := by decide

theorem witness_LengthOfDecodedIsIlenOfOpcode :
    decodeBytes (18 :: [0, 0, 0, 0, 0, 0, 0, 0x24]) = .ok (.loadX 36, 9) ∧
    decodeBytes (39 :: []) = .ok (.skipLeEq, 1) := by decide

/-- Each way of running out of instructions at its boundary, and the boundary's other side. -/
theorem witness_OutOfInstructionsExactlyPastTheEnd :
    decodeAt [] 65536 = .error (.outOfInstructions 65536) ∧
    decodeAt [(65528, 12)] 65528 = .error (.outOfInstructions 65528) ∧
    decodeAt [(65535, 18)] 65535 = .error (.outOfInstructions 65535) ∧
    decodeAt [(65527, 12)] 65527 = .ok (.loadA 0, 9) ∧ decodeAt [] 65535 = .ok (.noOp, 1) := by decide

/-- The least and the greatest unrecognised byte, at the last position, and the greatest recognised one. -/
theorem witness_IllegalInstructionExactlyOnBytesFrom40 :
    decodeAt [(65535, 40)] 65535 = .error (.illegalInstruction 40 65535) ∧
    decodeAt [(65535, 255)] 65535 = .error (.illegalInstruction 255 65535) ∧
    decodeAt [(65535, 39)] 65535 = .ok (.skipLeEq, 1) := by decide

/-- Two programs that differ in the tenth byte. -/
theorem witness_DecodeReadsOnlyNineBytes :
    ∀ n, n < 9 → (0 : Word).toNat + n ≤ 65535 →
      Memory.read [(0, (12 : Byte)), (8, 5), (9, 7)] ((0 : Word).toNat + n) =
        Memory.read [(0, (12 : Byte)), (8, 5)] ((0 : Word).toNat + n) := by decide

theorem witness_StepRunsTheDecodedInstruction :
    decodeAt (nextByte 3).program (nextByte 3).regX = .ok (.add, 1) := by decide

/-- Both ways a tick ends: a next state, and an error. -/
theorem witness_TickSucceedsOrReturnsOneError :
    (tick (nextByte 3)).1 = .ok ∧ (tick (nextByte 40)).1 = .error (.illegalInstruction 40 100) := by decide

/-- The three kinds of instruction that can fail, at the first address past the built-in regions. -/
theorem witness_ErrorsBelongToTheirInstructions :
    exec .divide (machine 9 0 0 100 [] []) = .fault .divideByZero ∧
    exec (.loadBusX 0x20000) (nextByte 0) = .fault (.illegalAddressLoad 0x20000) ∧
    exec .pushXBusS (machine 0 0 0x20000 100 [] []) = .fault (.illegalAddressStore 0x20000) :=
  ⟨rfl, rfl, rfl⟩

theorem witness_FailedTickLeavesTheCore :
    tick (nextByte 0xFF) =
      (.error (.illegalInstruction 0xFF 100), (nextByte 0xFF).afterFault (.illegalInstruction 0xFF 100)) := by decide

theorem witness_CoreErrorRepeatsForever :
    (tick (machine 0 0 0 0x10000 [] [])).1 = .error (.outOfInstructions 0x10000) ∧
    (tick (nextByte 40)).1 = .error (.illegalInstruction 40 100) ∧
    (tick (machine 9 0 0 100 [6] [])).1 = .error .divideByZero := by decide

/-- A canonical state whose step stores the word that empties a cell of memory. -/
theorem witness_StepKeepsCanonicalState :
    (machine 0 0 0 0 (encode (.pushABus 0xFFFF)) [(0xFFFF, 1)]).wf = true ∧
    wordAfter (machine 0 0 0 0 (encode (.pushABus 0xFFFF)) [(0xFFFF, 1)]) 0xFFFF = some (0, 9) := by decide

theorem witness_DeviceListIsFixed :
    step (withDevices 2) = .next ((withDevices 2).advance 1) ∧
    (withDevices 2).devices[1]? = some ⟨[]⟩ ∧ ((withDevices 2).advance 1).devices[1]? = some ⟨[]⟩ :=
  ⟨rfl, rfl, rfl⟩

/-- A step after which every register but A is as before, and one in which S is written. -/
theorem witness_OnlyNamedRegistersAreWritten :
    exec .swapAB (nextByte 0) = .next { nextByte 0 with regA := 4, regB := 9 } ∧
    exec .swapAS (nextByte 0) = .next { nextByte 0 with regA := 0xFFFF, regS := 9 } :=
  ⟨rfl, rfl⟩

/-- An instruction that is no store, and one that is no load either. -/
theorem witness_OnlyStoresChangeMemoryOrProgram :
    exec .loadBusAS (nextByte 0) = .next { nextByte 0 with regA := 0 } ∧
    (∀ addr r mode, (Instr.loadBusAS, r, mode) ∉ storeForms addr) ∧
    exec .skipEq (nextByte 0) = .next (nextByte 0) ∧
    (∀ addr r mode, (Instr.skipEq, r, mode) ∉ storeForms addr) ∧
    (∀ addr r mode, (Instr.skipEq, r, mode) ∉ loadForms addr) :=
  ⟨rfl, by simp [storeForms], rfl, by simp [storeForms], by simp [loadForms]⟩

/-- A Skip at 65534 that reaches 65544, and an instruction that writes no X at the last place it fits. -/
theorem witness_AdvanceNeverPassesTheEnd :
    (decodeAt [(65534, 0x23), (65535, 0x0C)] 65534 = .ok (.skipEq, 1) ∧
      regsAfter (machine 0 0 0 65534 [0x23, 0x0C] []) = some (0, 0, 0, 65544) ∧
      (Instr.skipEq, fun a b : Nat => a = b) ∈ skipForms) ∧
    (decodeAt [(65527, 12), (65535, 5)] 65527 = .ok (.loadA 5, 9) ∧
      regsAfter (machine 0 0 0 65527 (encode (.loadA 5)) []) = some (5, 0, 0, 65536) ∧
      Reg.x ∉ writtenRegs (.loadA 5)) :=
  ⟨⟨by decide, by decide, List.mem_cons_self ..⟩, by decide, by decide, by decide⟩

/-- The whole of an empty program, and the position just past it. -/
theorem witness_ZeroFilledTailRunsToTheEnd :
    (State.reset.regX.toNat ≤ 65536 ∧
      ∀ p, State.reset.regX.toNat ≤ p → p < 65536 → Memory.read State.reset.program p = 0) ∧
    ((machine 1 2 3 65536 [] []).regX.toNat ≤ 65536) :=
  ⟨⟨by decide, fun _ _ _ => rfl⟩, by decide⟩

/-- X at the last position, and at the first past it. -/
theorem witness_NoOpOnlyAdvancesX :
    ((machine 1 2 3 65535 [0] []).regX.toNat ≤ 65535 ∧
      Memory.read (machine 1 2 3 65535 [0] []).program (machine 1 2 3 65535 [0] []).regX.toNat = 0) ∧
    65535 < (machine 1 2 3 65536 [] []).regX.toNat := by decide

theorem witness_DivideIsFloorQuotientOrDivideByZero :
    (nextByte 6).regB ≠ 0 ∧ (machine 9 0 0 100 [6] []).regB = 0 ∧
    decodeAt (machine 9 0 0 100 [6] []).program (machine 9 0 0 100 [6] []).regX = .ok (.divide, 1) := by decide

theorem witness_CopiesMoveOneRegister :
    (Instr.copyAB, Reg.a, Reg.b) ∈ copyForms ∧ (Instr.copySX, Reg.s, Reg.x) ∈ copyForms := by decide

theorem witness_SwapsExchangeTwoRegisters :
    (Instr.swapAB, Reg.a, Reg.b) ∈ swapForms ∧ (Instr.swapBS, Reg.b, Reg.s) ∈ swapForms := by decide

/-- The opcode byte 12 at both ends of the tail where it does not fit. -/
theorem witness_LoadALoadsItsLiteral :
    (Memory.read [(65528, (12 : Byte))] (65528 : Word).toNat = 12 ∧ 65528 ≤ (65528 : Word).toNat) ∧
    (Memory.read [(65535, (12 : Byte))] (65535 : Word).toNat = 12 ∧ (65535 : Word).toNat ≤ 65535) := by decide

/-- One state for each of the five instructions; the stores at the last word of memory. -/
theorem witness_XReadersSeeTheNextPosition :
    decodeAt (nextByte 0x13).program (nextByte 0x13).regX = .ok (.copyXA, 1) ∧
    decodeAt (nextByte 0x14).program (nextByte 0x14).regX = .ok (.copyXB, 1) ∧
    decodeAt (nextByte 0x19).program (nextByte 0x19).regX = .ok (.copyXS, 1) ∧
    decodeAt (machine 0 0 0 65527 (encode (.pushXBus 0xFFFF)) []).program 65527 = .ok (.pushXBus 0xFFFF, 9) ∧
    (0xFFFF : Word).toNat ≤ 0xFFFF ∧
    decodeAt (nextByte 0x22).program (nextByte 0x22).regX = .ok (.pushXBusS, 1) ∧
    (nextByte 0x22).regS.toNat ≤ 0xFFFF := by decide

/-- An absolute address and one in S, both the last of memory. -/
theorem witness_LoadsFromMemoryComplete :
    ((Instr.loadBusA 0xFFFF, Reg.a, AddrMode.absolute 0xFFFF) ∈ loadForms 0xFFFF ∧
      ((nextByte 0).effAddr (.absolute 0xFFFF)).toNat ≤ 0xFFFF) ∧
    ((Instr.loadBusXS, Reg.x, AddrMode.throughS) ∈ loadForms 0 ∧ ((nextByte 0).effAddr .throughS).toNat ≤ 0xFFFF) := by
  decide

/-- The first and the last byte of program. -/
theorem witness_LoadsFromProgramZeroExtend :
    ((Instr.loadBusB 0x10000, Reg.b, AddrMode.absolute 0x10000) ∈ loadForms 0x10000 ∧
      0x10000 ≤ ((nextByte 0).effAddr (.absolute 0x10000)).toNat) ∧
    ((Instr.loadBusAS, Reg.a, AddrMode.throughS) ∈ loadForms 0 ∧
      0x10000 ≤ ((machine 0 0 0x1FFFF 0 [] []).effAddr .throughS).toNat ∧
      ((machine 0 0 0x1FFFF 0 [] []).effAddr .throughS).toNat ≤ 0x1FFFF) := by decide

/-- A load that answers, and one that raises. -/
theorem witness_LoadsAreRoutedReads :
    (Instr.loadBusX 0xFFFF, Reg.x, AddrMode.absolute 0xFFFF) ∈ loadForms 0xFFFF ∧
    (Instr.loadBusBS, Reg.b, AddrMode.throughS) ∈ loadForms 0 ∧
    routeLoad Config.platform (nextByte 0) 0xFFFF = .ok (0, nextByte 0) ∧
    routeLoad Config.platform (nextByte 0) 0x20000 = .error (.illegalAddressLoad 0x20000) :=
  ⟨by decide, by decide, rfl, rfl⟩

theorem witness_StoresToMemoryComplete :
    ((Instr.pushXBus 0xFFFF, Reg.x, AddrMode.absolute 0xFFFF) ∈ storeForms 0xFFFF ∧
      ((nextByte 0).effAddr (.absolute 0xFFFF)).toNat ≤ 0xFFFF) ∧
    ((Instr.pushABusS, Reg.a, AddrMode.throughS) ∈ storeForms 0 ∧ ((nextByte 0).effAddr .throughS).toNat ≤ 0xFFFF) := by
  decide

theorem witness_StoresToProgramKeepLowByte :
    ((Instr.pushBBus 0x10000, Reg.b, AddrMode.absolute 0x10000) ∈ storeForms 0x10000 ∧
      0x10000 ≤ ((nextByte 0).effAddr (.absolute 0x10000)).toNat) ∧
    ((Instr.pushXBusS, Reg.x, AddrMode.throughS) ∈ storeForms 0 ∧
      0x10000 ≤ ((machine 0 0 0x1FFFF 0 [] []).effAddr .throughS).toNat ∧
      ((machine 0 0 0x1FFFF 0 [] []).effAddr .throughS).toNat ≤ 0x1FFFF) := by decide

/-- A store that answers, and one that raises. -/
theorem witness_StoresAreRoutedWrites :
    (Instr.pushABus 0x1FFFF, Reg.a, AddrMode.absolute 0x1FFFF) ∈ storeForms 0x1FFFF ∧
    (Instr.pushBBusS, Reg.b, AddrMode.throughS) ∈ storeForms 0 ∧
    routeStore Config.platform (nextByte 0) 0x1FFFF 9 =
      .ok { nextByte 0 with program := Memory.write (nextByte 0).program 65535 9 } ∧
    routeStore Config.platform (nextByte 0) 0x20000 9 = .error (.illegalAddressStore 0x20000) :=
  ⟨by decide, by decide, rfl, rfl⟩

/-- The first address past the built-in regions, for a load and for a store. -/
theorem witness_AccessWithoutDevicesIsIllegal :
    (nextByte 0).devices = [] ∧ 0x20000 ≤ ((nextByte 0).effAddr (.absolute 0x20000)).toNat ∧
    (Instr.loadBusA 0x20000, Reg.a, AddrMode.absolute 0x20000) ∈ loadForms 0x20000 ∧
    (Instr.pushABus 0x20000, Reg.a, AddrMode.absolute 0x20000) ∈ storeForms 0x20000 := by decide

/-- The addresses at both ends of memory. -/
theorem witness_MemoryWordsRoundTrip : (0 : Word).toNat ≤ 0xFFFF ∧ (0xFFFF : Word).toNat ≤ 0xFFFF := by decide

/-- The addresses at both ends of the program window. -/
theorem witness_ProgramStoreTruncates :
    (0x10000 ≤ (0x10000 : Word).toNat ∧ (0x10000 : Word).toNat ≤ 0x1FFFF) ∧
    (0x10000 ≤ (0x1FFFF : Word).toNat ∧ (0x1FFFF : Word).toNat ≤ 0x1FFFF) := by decide

/-- The addresses at both ends of the program window. -/
theorem witness_ProgramLoadZeroExtends :
    (0x10000 ≤ (0x10000 : Word).toNat ∧ (0x10000 : Word).toNat ≤ 0x1FFFF) ∧
    (0x10000 ≤ (0x1FFFF : Word).toNat ∧ (0x1FFFF : Word).toNat ≤ 0x1FFFF) := by decide

/-- Both sides hold somewhere: no device claims the address past the first range. -/
theorem witness_UnmappedAddressRaises :
    0x20000 ≤ (0x20010 : Word).toNat ∧
    ∀ k d, (withDevices 1).devices[k]? = some d → deviceClaims disjoint (withDevices 1).ticks 0x20010 k d = false := by
  refine ⟨by decide, fun k d h => ?_⟩
  cases k with
  | zero => cases h; decide
  | succ k => simp [withDevices, State.new] at h

/-- The second of two overlapping devices is the last that claims the address, at its minimum; the
first of two disjoint ones is the last that claims its maximum. -/
theorem witness_LastClaimingDeviceAnswersLoad :
    (0x20000 ≤ (0x20080 : Word).toNat ∧ (withDevices 2).devices[1]? = some ⟨[]⟩ ∧
      (overlapping.range 1 [] (withDevices 2).ticks).1.toNat ≤ (0x20080 : Word).toNat ∧
      (0x20080 : Word).toNat ≤ (overlapping.range 1 [] (withDevices 2).ticks).2.toNat ∧
      ∀ j e, 1 < j → (withDevices 2).devices[j]? = some e →
        (0x20080 : Word).toNat < (overlapping.range j e.calls (withDevices 2).ticks).1.toNat ∨
        (overlapping.range j e.calls (withDevices 2).ticks).2.toNat < (0x20080 : Word).toNat) ∧
    ((withDevices 2).devices[0]? = some ⟨[]⟩ ∧
      (disjoint.range 0 [] (withDevices 2).ticks).1.toNat ≤ (0x2000F : Word).toNat ∧
      (0x2000F : Word).toNat ≤ (disjoint.range 0 [] (withDevices 2).ticks).2.toNat ∧
      ∀ j e, 0 < j → (withDevices 2).devices[j]? = some e →
        (0x2000F : Word).toNat < (disjoint.range j e.calls (withDevices 2).ticks).1.toNat ∨
        (disjoint.range j e.calls (withDevices 2).ticks).2.toNat < (0x2000F : Word).toNat) := by
  refine ⟨⟨by decide, rfl, by decide, by decide, fun j e hj h => ?_⟩, rfl, by decide, by decide, fun j e hj h => ?_⟩
  · have : (withDevices 2).devices[j]? = none := List.getElem?_eq_none hj
    rw [this] at h; cases h
  · match j, h with
    | 1, h => cases h; decide
    | j + 2, h => simp [withDevices, State.new] at h

/-- Both bounds are inside the range, one past the maximum is not, and an inverted range exists. -/
theorem witness_DeviceClaimsItsInclusiveRange :
    deviceClaims disjoint 0 0x20000 0 ⟨[]⟩ = true ∧ deviceClaims disjoint 0 0x2000F 0 ⟨[]⟩ = true ∧
    deviceClaims disjoint 0 0x20010 0 ⟨[]⟩ = false ∧ deviceClaims disjoint 0 0x1FFFF 0 ⟨[]⟩ = false ∧
    ((Platform.ofModels fun _ => cellDevice (0x20010, 0x20000) true 0).range 0 [] 0).2.toNat <
      ((Platform.ofModels fun _ => cellDevice (0x20010, 0x20000) true 0).range 0 [] 0).1.toNat := by decide

/-- Two overlapping devices claim the address, and the stores of both succeed. -/
theorem witness_StoreReachesEveryClaimingDevice :
    0x20000 ≤ (0x20090 : Word).toNat ∧
    (∃ (k : Nat) (d : Device), (withDevices 2).devices[k]? = some d ∧
      deviceClaims overlapping (withDevices 2).ticks 0x20090 k d = true) ∧
    ∀ k d, (withDevices 2).devices[k]? = some d → deviceClaims overlapping (withDevices 2).ticks 0x20090 k d = true →
      overlapping.storeOk k d.calls (withDevices 2).ticks 0x20090 7 = true := by
  refine ⟨by decide, ⟨0, ⟨[]⟩, rfl, by decide⟩, fun k d h _ => ?_⟩
  match k, h with
  | 0, h => cases h; decide
  | 1, h => cases h; decide
  | k + 2, h => simp [withDevices, State.new] at h

/-- Vector V9: the second of three devices is the first whose store fails. -/
theorem witness_StoreStopsAtFirstFailingDevice :
    0x20000 ≤ (0x20001 : Word).toNat ∧ (withDevices 3).devices[1]? = some ⟨[]⟩ ∧
    deviceClaims secondFails (withDevices 3).ticks 0x20001 1 ⟨[]⟩ = true ∧
    secondFails.storeOk 1 [] (withDevices 3).ticks 0x20001 7 = false ∧
    ∀ j e, j < 1 → (withDevices 3).devices[j]? = some e →
      deviceClaims secondFails (withDevices 3).ticks 0x20001 j e = true →
      secondFails.storeOk j e.calls (withDevices 3).ticks 0x20001 7 = true := by
  refine ⟨by decide, rfl, by decide, by decide, fun j e hj h _ => ?_⟩
  obtain rfl : j = 0 := by omega
  cases h; decide

/-- Program P3's patch: A's low byte is 05, Multiply, and the position is any up to the last. -/
theorem witness_FetchSeesTheStoredOpcode :
    (65535 : Word).toNat ≤ 65535 ∧ encode .multiply = [(machine 0x105 0 0 0 [] []).regA.setWidth 8] := by decide

/-- Equal values, X inside the array and just past it. -/
theorem witness_SkipPassesOneInstructionWhenItsRelationHolds :
    (Instr.skipEq, fun a b : Nat => a = b) ∈ skipForms ∧
    (machine 5 5 0 65535 [0x0C] []).regA.toNat = (machine 5 5 0 65535 [0x0C] []).regB.toNat ∧
    ¬ 65535 < (machine 5 5 0 65535 [0x0C] []).regX.toNat ∧
    (Memory.read (machine 5 5 0 65535 [0x0C] []).program 65535).toNat ∈ [1, 2, 10, 11, 12, 13, 14, 17, 18] ∧
    65535 < (machine 5 5 0 65536 [] []).regX.toNat :=
  ⟨List.mem_cons_self .., by decide, by decide, by decide, by decide⟩

theorem witness_SkipDoesNothingWhenItsRelationFails :
    (Instr.skipEq, fun a b : Nat => a = b) ∈ skipForms ∧
    ¬ (machine 5 6 0 11 [] []).regA.toNat = (machine 5 6 0 11 [] []).regB.toNat :=
  ⟨List.mem_cons_self .., by decide⟩

/-- The last position with a next byte, with A below, equal to and above B. -/
theorem witness_SkipTruthTable :
    (machine 5 6 0 65535 [] []).regX.toNat ≤ 65535 ∧ (machine 5 5 0 65535 [] []).regX.toNat ≤ 65535 ∧
    (machine 6 5 0 65535 [] []).regX.toNat ≤ 65535 := by decide

/-- The four clauses of one platform and state: a fetch that succeeds, one that fails, and one instruction of each
kind. -/
theorem witness_ExecuteTakesItsPlatform :
    decodeAt (nextByte 3).program (nextByte 3).regX = .ok (.add, 1) ∧
    decodeAt (nextByte 40).program (nextByte 40).regX = .error (.illegalInstruction 40 100) ∧
    (Instr.loadBusA 0x20000, Reg.a, AddrMode.absolute 0x20000) ∈ loadForms 0x20000 ∧
    (Instr.pushXBusS, Reg.x, AddrMode.throughS) ∈ storeForms 0 ∧
    (∀ addr r mode, (Instr.divide, r, mode) ∉ loadForms addr) ∧
    (∀ addr r mode, (Instr.divide, r, mode) ∉ storeForms addr) :=
  ⟨by decide, by decide, by decide, by decide, by simp [loadForms], by simp [storeForms]⟩

/-- The machine of V1 to V3 with LoadBusA at an address, A and B as after V2. -/
def loadSystem (addr : Word) : System :=
  { twoDevices with core := { machine 0xAB 0xAB 0 27 (encode (.loadBusA addr)) [] with devices := [⟨[]⟩, ⟨[]⟩] } }

/-- The machine of V9 with PushABus at an address. -/
def storeSystem (addr : Word) : System :=
  { failingSystem with core := { machine 7 0 0 9 (encode (.pushABus addr)) [] with devices := [⟨[]⟩, ⟨[]⟩, ⟨[]⟩] } }

/-- A load at both bounds of a range and one past it; a store that is done, one that no device claims, one that
fails. -/
theorem witness_TicksRunTheSuppliedDevices :
    (decodeAt (loadSystem 0x2000F).core.program (loadSystem 0x2000F).core.regX = .ok (.loadBusA 0x2000F, 9) ∧
      (Instr.loadBusA 0x2000F, Reg.a, AddrMode.absolute 0x2000F) ∈ loadForms 0x2000F ∧
      (liveScanLoad 0x2000F none (loadSystem 0x2000F).live).1 = some 0) ∧
    ((liveScanLoad 0x20000 none (loadSystem 0x20000).live).1 = some 0 ∧
      (liveScanLoad 0x20010 none (loadSystem 0x20010).live).1 = none) ∧
    (decodeAt twoDevices.core.program twoDevices.core.regX = .ok (.pushABus 0x20005, 9) ∧
      (Instr.pushABus 0x20005, Reg.a, AddrMode.absolute 0x20005) ∈ storeForms 0x20005 ∧
      (liveScanStore 0x20005 0xAB 0 false twoDevices.live).1 = .done) ∧
    (decodeAt (storeSystem 0x20100).core.program (storeSystem 0x20100).core.regX = .ok (.pushABus 0x20100, 9) ∧
      (liveScanStore 0x20100 7 0 false (storeSystem 0x20100).live).1 = .unclaimed ∧
      (liveScanStore 0x200FF 7 0 false (storeSystem 0x200FF).live).1 = .failed 1) := by decide

theorem witness_FetchWordPlacesTheInstructionToRun :
    decodeTableWord 72 0x05000000000000000C = some (.loadA 5) ∧ decodeTableWord 8 0x27 = some .skipLeEq := by decide

end Sys2Proof.Tests
end

section
/-! SUPPORT. The state right after construction, read through the accessors: every register, every word of `memory`,
every byte of `program`, the number of devices. -/

namespace Sys2Proof.Machine

/-- All four registers start at 0 (R24). -/
@[simp] theorem State.new_reg (image : List Byte) (ndev : Nat) (r : Reg) : (State.new image ndev).reg r = 0 := by
  cases r with
  | a => exact State.new_regA image ndev
  | b => exact State.new_regB image ndev
  | s => exact State.new_regS image ndev
  | x => exact State.new_regX image ndev

/-- Every word of `memory` starts at 0 (R24). -/
theorem State.read_new_memory (image : List Byte) (ndev i : Nat) :
    Memory.read (State.new image ndev).memory i = 0 := by
  rw [State.new_memory, Memory.read_nil]

/-- A byte of the image whose position exists is the byte of `program` at that position (R24), whatever the image's
length. -/
theorem State.read_new_program (image : List Byte) (ndev : Nat) {p : Nat} (hp : p < image.length)
    (hexists : p < 65536) : Memory.read (State.new image ndev).program p = image[p] := by
  have hwritten : 0 ≤ p ∧ p < 0 + image.length ∧ p < 65536 := ⟨p.zero_le, by omega, hexists⟩
  rw [State.new_program, Memory.read_writeAll, if_pos hwritten, Nat.sub_zero, List.getD_eq_getElem _ _ hp]

/-- The device list has the length the constructor is given (R24). -/
@[simp] theorem State.new_devices_length (image : List Byte) (ndev : Nat) :
    (State.new image ndev).devices.length = ndev := by
  rw [State.new_devices, List.length_replicate]

end Sys2Proof.Machine

open Sys2Proof.Machine

/-- Settles O1: registers, `memory` and the device list by their reads at construction, `program` by what a read sees
after the image was written from position 0. -/
theorem constructionGivesResetValues : Obligations.ConstructionGivesResetValues := by
  intro image ndev hlen
  have hprogram : ∀ p (h : p < image.length), Memory.read (State.new image ndev).program p = image[p] :=
    fun p h => State.read_new_program image ndev h (hlen ▸ h)
  exact ⟨State.new_reg image ndev, fun i _ => State.read_new_memory image ndev i, hprogram,
    State.new_devices_length image ndev⟩
end

section
/-! SUPPORT. The router in its three regions: what stays when a state's arrays or devices are replaced, the byte a
store to `program` keeps as a load reads it back, and when an access to region 2 finds no device. -/

namespace Sys2Proof.Machine

/-- Replacing the arrays, the devices and the tick counter leaves every register. -/
theorem sameRegsBut_replace (written : List Reg) (s : State) (memory : WordMemory) (program : ByteMemory)
    (devices : List Device) (ticks : Nat) :
    SameRegsBut written s { s with memory := memory, program := program, devices := devices, ticks := ticks } := by
  intro r _
  cases r <;> rfl

/-- Truncation to a byte followed by zero extension is the mask of R36. -/
theorem setWidth_byte_setWidth_word (v : Word) : (v.setWidth 8).setWidth 64 = v &&& 0xFF := by
  apply BitVec.eq_of_toNat_eq
  have hmask : v.toNat &&& 255 = v.toNat % 256 := Nat.and_two_pow_sub_one_eq_mod v.toNat 8
  have hlt : v.toNat % 256 % 2 ^ 64 = v.toNat % 256 := Nat.mod_eq_of_lt (by omega)
  calc ((v.setWidth 8).setWidth 64).toNat
      = v.toNat % 256 % 2 ^ 64 := by rw [BitVec.toNat_setWidth, BitVec.toNat_setWidth]
    _ = v.toNat &&& 255 := by rw [hlt, hmask]
    _ = (v &&& 0xFF).toNat := (BitVec.toNat_and v 0xFF).symm

/-- What holds of every device of a list numbered from position `k` on, said of its first device and of the later
ones. -/
theorem forall_device_cons_iff {P : Nat → Device → Prop} {k : Nat} {d : Device} {ds : List Device} :
    (∀ j e, (d :: ds)[j]? = some e → P (k + j) e) ↔ P k d ∧ ∀ j e, ds[j]? = some e → P (k + 1 + j) e := by
  rw [← Nat.and_forall_add_one]
  simp [Nat.add_assoc, Nat.add_comm 1]

section Scans

variable (p : Platform) (now : Nat) (addr v : Word)

/-- A device that fails is one that claimed the address (R39). -/
theorem scanStore_found_of_failed {k : Nat} {found : Bool} {ds : List Device} {m : Nat}
    (h : (scanStore p now addr v k found ds).failed = some m) : (scanStore p now addr v k found ds).found = true := by
  induction ds generalizing k found with
  | nil => cases h
  | cons d ds ih =>
    rw [scanStore] at h ⊢
    by_cases hclaims : deviceClaims p now addr k d
    · by_cases hok : p.storeOk k d.calls now addr v
      · rw [if_pos hclaims, if_pos hok] at h ⊢
        exact ih h
      · rw [if_pos hclaims, if_neg hok]
    · rw [if_neg hclaims] at h ⊢
      exact ih h

/-- The scan of a store finds nothing exactly where nothing was found before and no device claims the address
(R42). -/
theorem scanStore_not_found_iff (k : Nat) (found : Bool) (ds : List Device) :
    (scanStore p now addr v k found ds).found = false ↔
      found = false ∧ ∀ j d, ds[j]? = some d → deviceClaims p now addr (k + j) d = false := by
  induction ds generalizing k found with
  | nil => simp [scanStore]
  | cons d ds ih =>
    rw [scanStore, forall_device_cons_iff (P := fun j e => deviceClaims p now addr j e = false)]
    split
    · next hclaims => split <;> simp [ih, hclaims]
    · next hclaims => simp [ih, hclaims]

end Scans

section Routes

variable (p : Platform) (s : State) (addr v : Word)

/-- From 0x20000 on a load is illegal exactly where its scan finds no device. -/
theorem routeLoad_device_illegal_iff (h : 0x20000 ≤ addr.toNat) :
    routeLoad p s addr = .error (.illegalAddressLoad addr) ↔ (scanLoad p s.ticks addr 0 none s.devices).1 = none := by
  rw [routeLoad_device p s addr h]
  split <;> (next hscan => simp [hscan])

/-- From 0x20000 on a store is illegal exactly where its scan finds no device. -/
theorem routeStore_device_illegal_iff (h : 0x20000 ≤ addr.toNat) :
    routeStore p s addr v = .error (.illegalAddressStore addr) ↔
      (scanStore p s.ticks addr v 0 false s.devices).found = false := by
  rw [routeStore_device p s addr v h]
  split
  · next m hfailed => simp [scanStore_found_of_failed p s.ticks addr v hfailed]
  · split <;> (next hfound => simp [hfound])

end Routes

end Sys2Proof.Machine

open Sys2Proof Sys2Proof.Machine

/-- Settles O44: region 0's two operations, and what a read sees after a write of `memory`. -/
theorem memoryWordsRoundTrip : Obligations.MemoryWordsRoundTrip := by
  intro p s addr v haddr
  refine ⟨routeLoad_memory p s addr haddr, _, routeStore_memory p s addr v haddr, Memory.read_write_same _ _ _,
    fun a ha => Memory.read_write_other _ v ha, sameRegsBut_replace [] s _ _ _ _, fun _ => rfl, ⟨rfl, rfl⟩, ?_⟩
  rw [routeLoad_memory _ _ _ haddr, Memory.read_write_same]

/-- Settles O45: region 1's two operations, what a read sees after a write of `program`, and the mask that truncation
and zero extension amount to. -/
theorem programStoreTruncates : Obligations.ProgramStoreTruncates := by
  intro p s addr v hlo hhi
  refine ⟨_, routeStore_program p s addr v hlo hhi, ?_, fun q hq => Memory.read_write_other _ _ hq,
    sameRegsBut_replace [] s _ _ _ _, fun _ => rfl, ⟨rfl, rfl⟩, ?_⟩
  · rw [Memory.read_write_same, BitVec.setWidth_eq_extractLsb' (by decide)]
  · rw [routeLoad_program _ _ _ hlo hhi, Memory.read_write_same, setWidth_byte_setWidth_word]

/-- Settles O46: region 1's load answers the byte widened to a word, and widening keeps its value. -/
theorem programLoadZeroExtends : Obligations.ProgramLoadZeroExtends := by
  intro p s addr hlo hhi
  have hvalue (b : Byte) : (b.setWidth 64).toNat = b.toNat := BitVec.toNat_setWidth_of_le (by decide)
  refine ⟨_, routeLoad_program p s addr hlo hhi, hvalue _, ?_⟩
  rw [hvalue]
  exact Nat.le_of_lt_succ (BitVec.isLt _)

/-- Settles O47: only an access from 0x20000 on can raise, and there its scan finds nothing exactly where no device
claims the address. -/
theorem unmappedAddressRaises : Obligations.UnmappedAddressRaises := by
  intro p s addr v
  by_cases hdevice : 0x20000 ≤ addr.toNat
  · rw [routeLoad_device_illegal_iff p s addr hdevice, routeStore_device_illegal_iff p s addr v hdevice,
      scanLoad_none_iff, scanStore_not_found_iff]
    simp [hdevice]
  · exact ⟨⟨fun h => absurd (routeLoad_error h).1 hdevice, fun h => absurd h.1 hdevice⟩,
      ⟨fun h => absurd (routeStore_error h).1 hdevice, fun h => absurd h.1 hdevice⟩⟩
end

section
/-! SUPPORT. What the decoder takes from its input: the opcode byte's entry in the map fixes format and length, and of
`program` only the window counts. -/

namespace Sys2Proof

/-- An opcode byte whose entry in the map has format OP decodes alone, whatever follows it (R61). -/
theorem decodeBytes_of_op {b : Byte} {i : Instr} (h : variant b = some (.op i)) (operand : List Byte) :
    decodeBytes (b :: operand) = .ok (i, 1) := by
  rw [decodeBytes, h]

/-- An opcode byte whose entry in the map has format OPI decodes with the immediate of the next eight bytes, where
they are there (R62). -/
theorem decodeBytes_of_opi {b : Byte} {f : Word → Instr} (h : variant b = some (.opi f)) {operand : List Byte}
    (hroom : 8 ≤ operand.length) : decodeBytes (b :: operand) = .ok (f (bigEndian (operand.take 8)), 9) := by
  rw [decodeBytes, h]
  exact if_neg (Nat.not_lt.mpr hroom)

namespace Machine

/-- The window is the same in two programs that agree on the at most nine positions it covers (R75). -/
theorem fetchWindow_congr {program other : ByteMemory} {pc : Word}
    (hagree : ∀ n, n < 9 → pc.toNat + n ≤ 65535 →
      Memory.read other (pc.toNat + n) = Memory.read program (pc.toNat + n)) :
    fetchWindow other pc = fetchWindow program pc := by
  apply List.ext_getElem
  · rw [fetchWindow_length, fetchWindow_length]
  · intro n hother hprogram
    have hinside : n < min 9 (65536 - pc.toNat) := fetchWindow_length program pc ▸ hprogram
    rw [fetchWindow_getElem, fetchWindow_getElem]
    exact hagree n (by omega) (by omega)

/-- The decoder sees nothing of `program` but the window (R75). -/
theorem decodeAt_congr {program other : ByteMemory} {pc : Word}
    (hwindow : fetchWindow other pc = fetchWindow program pc) : decodeAt other pc = decodeAt program pc := by
  rw [decodeAt, decodeAt, hwindow]

end Machine

end Sys2Proof

open Sys2Proof Sys2Proof.Machine

/-- Settles O4: the five entries of the opcode map are read off, and each decoding follows from its byte's entry. -/
theorem statedOpcodeBytesDecode : Obligations.StatedOpcodeBytesDecode := by
  have hnoOp : opcodeMap[0]? = some (.op .noOp) := rfl
  have hadd : opcodeMap[3]? = some (.op .add) := rfl
  have hdivide : opcodeMap[6]? = some (.op .divide) := rfl
  have hpushABus : opcodeMap[10]? = some (.opi .pushABus) := rfl
  have hloadA : opcodeMap[12]? = some (.opi .loadA) := rfl
  have hfive : bigEndian [0, 0, 0, 0, 0, 0, 0, 5] = 5 := by decide
  have hzero : bigEndian [0, 0, 0, 0, 0, 0, 0, 0] = 0 := by decide
  refine ⟨decodeBytes_of_op (b := 0) hnoOp [], ?_, ?_, decodeBytes_of_op (b := 3) hadd [],
    decodeBytes_of_op (b := 6) hdivide [], hnoOp, hadd, hdivide, hpushABus, hloadA⟩
  · rw [decodeBytes_of_opi (b := 12) hloadA (by simp), List.take_of_length_le (by simp), hfive]
  · rw [decodeBytes_of_opi (b := 10) hpushABus (by simp), List.take_of_length_le (by simp), hzero]

/-- Settles O13: the two programs have the same fetch window at `pc`, and the decoder sees no more than that. -/
theorem decodeReadsOnlyNineBytes : Obligations.DecodeReadsOnlyNineBytes := by
  intro program other pc hagree
  exact decodeAt_congr (fetchWindow_congr hagree)
end

section
/-! SUPPORT. The fetch at a position said by the opcode byte there, what a step is where its fetch is known, and what
the advance of X leaves as it was. -/

namespace Sys2Proof.Machine

/-- Inside the array an opcode byte whose entry in the map has format OP is fetched alone (R67). -/
theorem decodeAt_of_op {program : ByteMemory} {pc : Word} {i : Instr} (hpc : pc.toNat ≤ 65535)
    (hop : variant (Memory.read program pc.toNat) = some (.op i)) : decodeAt program pc = .ok (i, 1) := by
  obtain ⟨operand, hwindow, _⟩ := fetchWindow_inside program pc hpc
  rw [decodeAt, hwindow, decodeBytes_of_op hop]

/-- Past the array the fetch raises OutOfInstructions at its position, whatever `program` holds (R69). -/
theorem decodeAt_past {pc : Word} (program : ByteMemory) (hpc : 65535 < pc.toNat) :
    decodeAt program pc = .error (.outOfInstructions pc) := by
  rw [decodeAt, fetchWindow_past program pc hpc, decodeBytes]

/-- Where the fetch gives an instruction, the step is its execute step on the advanced state (R80). -/
theorem step_of_decodeAt_ok {s : State} {i : Instr} {len : Nat} (h : decodeAt s.program s.regX = .ok (i, len)) :
    step s = exec i (s.advance len) := by
  rw [step, h]

/-- Where the fetch fails, the step raises its error (R80). -/
theorem step_of_decodeAt_error {s : State} {f : Fault} (h : decodeAt s.program s.regX = .error f) :
    step s = .fault f := by
  rw [step, h]
  rfl

/-- The advance writes no register but X (R80). -/
theorem sameRegsBut_advance (s : State) (len : Nat) : SameRegsBut [.x] s (s.advance len) := by
  intro r hr
  cases r with
  | a => exact s.advance_regA len
  | b => exact s.advance_regB len
  | s => exact s.advance_regS len
  | x => exact absurd (List.mem_singleton_self Reg.x) hr

/-- NoOp's execute step leaves the whole state as it is (R82). -/
@[simp] theorem exec_noOp (s : State) : exec .noOp s = .next s := rfl

end Sys2Proof.Machine

open Sys2Proof Sys2Proof.Machine

/-- Settles O27: inside the array the byte 0 is fetched as NoOp, so the tick is the advance by 1 alone; past the array
the fetch itself fails. -/
theorem noOpOnlyAdvancesX : Obligations.NoOpOnlyAdvancesX := by
  refine ⟨rfl, rfl, exec_noOp, fun s hpc hbyte => ?_, fun s hpc => step_of_decodeAt_error (decodeAt_past s.program hpc)⟩
  have hfetch : decodeAt s.program s.regX = .ok (.noOp, 1) := decodeAt_of_op hpc (by rw [hbyte]; rfl)
  have hstep : step s = .next (s.advance 1) := by rw [step_of_decodeAt_ok hfetch, exec_noOp]
  exact ⟨s.advance 1, hstep, advance_regX_toNat hfetch, sameRegsBut_advance s 1, fun _ => rfl, fun _ => rfl,
    s.advance_devices 1⟩
end

section
/-! SUPPORT. No instruction lacks a meaning: on every platform an execute step, and with it a step, answers a next state
or an error (R162). -/

namespace Sys2Proof.Machine

variable {p : Platform} {s : State}

/-- A load completes or raises the router's error, whatever the devices answer. -/
theorem loadReg_ne_refused {r : Reg} {mode : AddrMode} (why : Refusal) : loadReg p r mode s ≠ .refused why := by
  unfold loadReg raise
  split <;> nofun

/-- A store completes or raises the router's error, whatever the devices answer. -/
theorem storeReg_ne_refused {r : Reg} {mode : AddrMode} (why : Refusal) : storeReg p r mode s ≠ .refused why := by
  unfold storeReg raise
  split <;> nofun

/-- Divide completes or raises DivideByZero. -/
theorem execDivide_ne_refused (why : Refusal) : execDivide s ≠ .refused why := by
  unfold execDivide aluResult raise
  split <;> nofun

/-- Every instruction has a meaning: the loads, the stores and Divide complete or raise, the others complete. -/
theorem execOn_ne_refused (i : Instr) (why : Refusal) : execOn p i s ≠ .refused why := by
  cases i with
  | divide => exact execDivide_ne_refused why
  | loadBusA | loadBusB | loadBusX | loadBusAS | loadBusBS | loadBusXS => exact loadReg_ne_refused why
  | pushABus | pushBBus | pushXBus | pushABusS | pushBBusS | pushXBusS => exact storeReg_ne_refused why
  | _ => nofun

/-- No step is refused: its fetch raises an error, or gives an instruction, which has a meaning. -/
theorem stepOn_ne_refused (why : Refusal) : stepOn p s ≠ .refused why := by
  unfold stepOn raise
  split
  · nofun
  · next i len _ => exact execOn_ne_refused i why

end Sys2Proof.Machine

open Sys2Proof Sys2Proof.Machine

/-- Settles O15: a step is a next state or a fault, since none is refused; what it is in the first case is the inversion
of the successful step, and the tick commits either. -/
theorem tickSucceedsOrReturnsOneError : Obligations.TickSucceedsOrReturnsOneError := by
  intro s
  cases hstep : step s with
  | next t =>
    obtain ⟨i, len, hfetch, hexec⟩ := step_next hstep
    exact .inl ⟨i, len, t, hfetch, hexec, rfl, by rw [tick, hstep, State.commit_next]⟩
  | fault f => exact .inr ⟨f, rfl, by rw [tick, hstep, State.commit_fault]⟩
  | refused why => exact absurd ((stepOn_platform s).trans hstep) (stepOn_ne_refused why)
end

section
/-! SUPPORT. The encoder and the decoder undo each other: what an encoding is in each of the two formats, and that eight
operand bytes are read back from the number they make. -/

namespace Sys2Proof

/-- An instruction without an immediate is encoded as its opcode byte alone (R61). -/
theorem encode_of_immediate_none {i : Instr} (h : i.immediate = none) : encode i = [i.opcode] := by
  rw [encode, h]

/-- An instruction with an immediate is encoded as its opcode byte and the immediate's eight bytes (R62). -/
theorem encode_of_immediate_some {i : Instr} {v : Word} (h : i.immediate = some v) :
    encode i = i.opcode :: immediateBytes v := by
  rw [encode, h]

/-- No instruction is longer than the longest (R60). -/
theorem Instr.length_le (i : Instr) : i.length ≤ 9 := by
  unfold Instr.length Config.immBytes
  split <;> decide

/-- Eight bytes are the operand bytes of the number they make (R63, R76). -/
theorem immediateBytes_bigEndian {bytes : List Byte} (h : bytes.length = 8) :
    immediateBytes (bigEndian bytes) = bytes := by
  match bytes, h with
  | [b₁, b₂, b₃, b₄, b₅, b₆, b₇, b₈], _ =>
    have h₁ := b₁.isLt; have h₂ := b₂.isLt; have h₃ := b₃.isLt; have h₄ := b₄.isLt
    have h₅ := b₅.isLt; have h₆ := b₆.isLt; have h₇ := b₇.isLt; have h₈ := b₈.isLt
    rw [immediateBytes_eq, bigEndian_toNat]
    simp only [List.cons.injEq, ← BitVec.toNat_inj, BitVec.toNat_ofNat, Nat.shiftRight_eq_div_pow, and_true]
    refine ⟨?_, ?_, ?_, ?_, ?_, ?_, ?_, ?_⟩ <;> omega

/-- Decoding an encoding, whatever follows it, gives the instruction back with its length: the opcode byte's entry in
the map says the format, and the eight operand bytes read back as the immediate (R76). -/
theorem decodeBytes_encode_append (i : Instr) (rest : List Byte) :
    decodeBytes (encode i ++ rest) = .ok (i, (encode i).length) := by
  obtain ⟨himm, hop⟩ | ⟨f, v, rfl, himm, hopi⟩ := variant_opcode i
  · rw [encode_of_immediate_none himm]
    exact decodeBytes_of_op hop rest
  · have hroom : 8 ≤ (immediateBytes v ++ rest).length := by simp
    have htake : (immediateBytes v ++ rest).take 8 = immediateBytes v := List.take_left' (immediateBytes_length v)
    rw [encode_of_immediate_some himm, List.cons_append, decodeBytes_of_opi hopi hroom, htake,
      bigEndian_immediateBytes]
    rfl

/-- What decodes begins with the encoding of what it decodes to, as long as that instruction (R76). -/
theorem encode_of_decodeBytes {bytes : List Byte} {i : Instr} {n : Nat} (h : decodeBytes bytes = .ok (i, n)) :
    n = i.length ∧ bytes.take n = encode i := by
  cases bytes with
  | nil => cases h
  | cons b operand =>
    obtain ⟨_, he⟩ | ⟨j, hv, he⟩ | ⟨f, hv, ⟨_, he⟩ | ⟨hroom, he⟩⟩ := decodeBytes_cases b operand <;>
      rw [he] at h <;> cases h
    · obtain ⟨_, hlen, himm, hopcode⟩ := variant_ilen b _ hv
      exact ⟨hlen.symm, by rw [encode_of_immediate_none himm, hopcode]; rfl⟩
    · obtain ⟨hlen, himm, hopcode⟩ := (variant_ilen b _ hv).2 (bigEndian (operand.take 8))
      refine ⟨hlen.symm, ?_⟩
      rw [encode_of_immediate_some himm, hopcode, immediateBytes_bigEndian (by simpa using hroom)]
      rfl

/-- A byte from 40 on is rejected, whatever follows it (R68). -/
theorem decodeBytes_of_unrecognised {b : Byte} (h : 40 ≤ b.toNat) (operand : List Byte) :
    decodeBytes (b :: operand) = .error (.illegalInstruction b) := by
  rw [decodeBytes, (variant_eq_none_iff b).2 h]

/-- What decodes is as long as its first byte says (R66). -/
theorem length_of_decodeBytes_cons {b : Byte} {operand : List Byte} {i : Instr} {n : Nat}
    (h : decodeBytes (b :: operand) = .ok (i, n)) : n = ilen b := by
  obtain ⟨_, he⟩ | ⟨j, hv, he⟩ | ⟨f, hv, ⟨_, he⟩ | ⟨_, he⟩⟩ := decodeBytes_cases b operand <;>
    rw [he] at h <;> cases h
  · exact (variant_ilen b _ hv).1.symm
  · exact (variant_ilen b _ hv).1.symm

end Sys2Proof

open Sys2Proof

/-- Settles O6: the opcode byte of an instruction fixes its format, and the immediate's bytes read back as the
immediate. -/
theorem decodeOfEncodeIsIdentity : Obligations.DecodeOfEncodeIsIdentity :=
  decodeBytes_encode_append

/-- Settles O7: each format read from the map is that of the instruction it makes, and eight operand bytes are those of
the immediate they are read as. -/
theorem encodeOfDecodeIsIdentity : Obligations.EncodeOfDecodeIsIdentity :=
  fun _ _ _ => encode_of_decodeBytes

/-- Settles O10: a format of the map is as long as `ilen` says of its opcode byte, and `ilen` is the stated table. -/
theorem lengthOfDecodedIsIlenOfOpcode : Obligations.LengthOfDecodedIsIlenOfOpcode :=
  ⟨fun _ _ _ _ => length_of_decodeBytes_cons, fun _ => rfl⟩

/-- Settles O5: each word's opcode byte has the entry of its instruction in the map, and byte 28 hex has none. -/
theorem wordsOfEachFamilyDecode : Obligations.WordsOfEachFamilyDecode := by
  have hliteral : bigEndian [1, 2, 3, 4, 5, 6, 7, 8] = 0x0102030405060708 := by decide
  have hposition : bigEndian [0, 0, 0, 0, 0, 0, 0, 0x24] = 36 := by decide
  have haddress : bigEndian [0, 0, 0, 0, 0, 1, 0, 0] = 0x10000 := by decide
  refine ⟨decodeBytes_of_op rfl [], decodeBytes_of_op rfl [], decodeBytes_of_op rfl [], ?_, ?_, ?_,
    decodeBytes_of_op rfl [], decodeBytes_of_op rfl [], decodeBytes_of_op rfl [],
    decodeBytes_of_unrecognised (b := 0x28) (by decide) []⟩
  · rw [decodeBytes_of_opi (b := 0x0D) (f := .loadB) rfl (by simp), List.take_of_length_le (by simp), hliteral]
  · rw [decodeBytes_of_opi (b := 0x12) (f := .loadX) rfl (by simp), List.take_of_length_le (by simp), hposition]
  · rw [decodeBytes_of_opi (b := 0x01) (f := .loadBusA) rfl (by simp), List.take_of_length_le (by simp), haddress]
end

section
/-! SUPPORT. Every answer of the fetch, said by position and opcode byte, and what an encoding that stands in `program`
is fetched as. -/

namespace Sys2Proof

/-- The nine OPI opcodes are the bytes whose entry in the map takes an immediate (R65, D4). -/
theorem variant_opi_iff (b : Byte) :
    (∃ f, variant b = some (.opi f)) ↔ b.toNat ∈ [1, 2, 10, 11, 12, 13, 14, 17, 18] := by
  have hilen : ilen b = if b.toNat ∈ [1, 2, 10, 11, 12, 13, 14, 17, 18] then 9 else 1 := rfl
  cases h : variant b with
  | none =>
    have hge := (variant_eq_none_iff b).1 h
    have hother : b.toNat ∉ [1, 2, 10, 11, 12, 13, 14, 17, 18] := fun hmem => by
      simp only [List.mem_cons, List.not_mem_nil, or_false] at hmem
      omega
    simp [hother]
  | some fmt =>
    have hfmt := variant_ilen b fmt h
    cases fmt with
    | op i =>
      have hother : b.toNat ∉ [1, 2, 10, 11, 12, 13, 14, 17, 18] := fun hmem => by
        rw [if_pos hmem, hfmt.1] at hilen
        cases hilen
      simp [hother]
    | opi f =>
      have hmem : b.toNat ∈ [1, 2, 10, 11, 12, 13, 14, 17, 18] := by
        by_contra hother
        rw [if_neg hother, hfmt.1] at hilen
        cases hilen
      exact ⟨fun _ => hmem, fun _ => ⟨f, rfl⟩⟩

namespace Machine

section Answers

variable {program : ByteMemory} {pc : Word}

/-- Inside the array a byte from 40 on is rejected with its position (R68). -/
theorem decodeAt_of_unrecognised (hpc : pc.toNat ≤ 65535) (hb : 40 ≤ (Memory.read program pc.toNat).toNat) :
    decodeAt program pc = .error (.illegalInstruction (Memory.read program pc.toNat) pc) := by
  obtain ⟨operand, hwindow, _⟩ := fetchWindow_inside program pc hpc
  rw [decodeAt, hwindow, decodeBytes_of_unrecognised hb]

/-- Where the array ends inside the operand bytes, the fetch raises OutOfInstructions at the opcode's position (R69,
D10). -/
theorem decodeAt_of_opi_cut {f : Word → Instr} (hpc : pc.toNat ≤ 65535)
    (hopi : variant (Memory.read program pc.toNat) = some (.opi f)) (hcut : 65528 ≤ pc.toNat) :
    decodeAt program pc = .error (.outOfInstructions pc) := by
  obtain ⟨operand, hwindow, hlen⟩ := fetchWindow_inside program pc hpc
  have hshort : operand.length < Config.immBytes := by
    show operand.length < 8
    omega
  rw [decodeAt, hwindow, decodeBytes, hopi]
  simp only [if_pos hshort]

/-- Where nine bytes fit, the window is the nine bytes from the position on. -/
theorem fetchWindow_nine (h : pc.toNat ≤ 65527) :
    fetchWindow program pc = (List.range 9).map fun n => Memory.read program (pc.toNat + n) := by
  have hnine : min longestInstr (Config.progBytes - pc.toNat) = 9 := by
    show min 9 (65536 - pc.toNat) = 9
    omega
  rw [fetchWindow, hnine]

/-- Where nine bytes fit, an OPI opcode is fetched with the immediate its eight operand bytes make (R62, R63). -/
theorem decodeAt_of_opi {f : Word → Instr} (hpc : pc.toNat ≤ 65527)
    (hopi : variant (Memory.read program pc.toNat) = some (.opi f)) :
    decodeAt program pc = .ok (f (bigEndian ((List.range 8).map fun n => Memory.read program (pc.toNat + (n + 1)))), 9) := by
  have hwindow : fetchWindow program pc = Memory.read program pc.toNat ::
      (List.range 8).map fun n => Memory.read program (pc.toNat + (n + 1)) := by
    rw [fetchWindow_nine hpc]
    rfl
  rw [decodeAt, hwindow, decodeBytes_of_opi hopi (by simp), List.take_of_length_le (by simp)]

/-- What the fetch answers inside the array, by the opcode byte and the room after it (R67 to R69). -/
theorem decodeAt_inside_cases {b : Byte} (hpc : pc.toNat ≤ 65535) (hb : Memory.read program pc.toNat = b) :
    (40 ≤ b.toNat ∧ b.toNat ∉ [1, 2, 10, 11, 12, 13, 14, 17, 18] ∧
      decodeAt program pc = .error (.illegalInstruction b pc)) ∨
    (b.toNat < 40 ∧ b.toNat ∈ [1, 2, 10, 11, 12, 13, 14, 17, 18] ∧ 65528 ≤ pc.toNat ∧
      decodeAt program pc = .error (.outOfInstructions pc)) ∨
    (b.toNat < 40 ∧ ¬ (65528 ≤ pc.toNat ∧ b.toNat ∈ [1, 2, 10, 11, 12, 13, 14, 17, 18]) ∧
      ∃ r, decodeAt program pc = .ok r) := by
  subst hb
  have hopi := variant_opi_iff (Memory.read program pc.toNat)
  have hnone := variant_eq_none_iff (Memory.read program pc.toNat)
  match hv : variant (Memory.read program pc.toNat) with
  | none =>
    have hge := hnone.1 hv
    exact .inl ⟨hge, fun hmem => by simpa [hv] using hopi.2 hmem, decodeAt_of_unrecognised hpc hge⟩
  | some (.op i) =>
    have hlt : (Memory.read program pc.toNat).toNat < 40 := by simpa [hv] using hnone
    exact .inr (.inr ⟨hlt, fun h => by simpa [hv] using hopi.2 h.2, _, decodeAt_of_op hpc hv⟩)
  | some (.opi f) =>
    have hlt : (Memory.read program pc.toNat).toNat < 40 := by simpa [hv] using hnone
    by_cases hcut : 65528 ≤ pc.toNat
    · exact .inr (.inl ⟨hlt, hopi.1 ⟨f, hv⟩, hcut, decodeAt_of_opi_cut hpc hv hcut⟩)
    · exact .inr (.inr ⟨hlt, fun h => hcut h.1, _, decodeAt_of_opi (by omega) hv⟩)

end Answers

section Placed

variable {program : ByteMemory} {pc : Word} {i : Instr}

/-- An encoding that begins the window is fetched (R76). -/
theorem decodeAt_of_take_window (h : (fetchWindow program pc).take i.length = encode i) :
    decodeAt program pc = .ok (i, i.length) := by
  have hsplit : fetchWindow program pc = encode i ++ (fetchWindow program pc).drop i.length := by
    rw [← h, List.take_append_drop]
  rw [decodeAt, hsplit, decodeBytes_encode_append, encode_length]

/-- An encoding that stands whole in `program` is fetched at its position (R76). -/
theorem decodeAt_of_placed (hfits : pc.toNat + i.length ≤ 65536)
    (hbytes : ∀ n (h : n < (encode i).length), Memory.read program (pc.toNat + n) = (encode i)[n]) :
    decodeAt program pc = .ok (i, i.length) := by
  apply decodeAt_of_take_window
  have hlen : ((fetchWindow program pc).take i.length).length = (encode i).length := by
    have hle := i.length_le
    rw [List.length_take, fetchWindow_length, encode_length]
    omega
  apply List.ext_getElem hlen
  intro n _ hn
  rw [List.getElem_take, fetchWindow_getElem]
  exact hbytes n hn

end Placed

end Machine

end Sys2Proof

open Sys2Proof Sys2Proof.Machine

/-- Settles O8: the window at the position begins with the encoding, and an encoding decodes whatever follows it. -/
theorem placedEncodingDecodesAtItsPosition : Obligations.PlacedEncodingDecodesAtItsPosition := by
  intro program pc i hfits hbytes
  exact decodeAt_of_placed (of_decide_eq_true hfits) hbytes

/-- Settles O9: an OPI opcode with room for its operand is fetched with the number its eight operand bytes make. -/
theorem immediateIsBigEndian : Obligations.ImmediateIsBigEndian := by
  intro program pc hpc hmem
  obtain ⟨f, hopi⟩ := (variant_opi_iff _).2 hmem
  obtain ⟨_, himm, _⟩ := (variant_ilen _ _ hopi).2
    (bigEndian ((List.range 8).map fun n => Memory.read program (pc.toNat + (n + 1))))
  exact ⟨_, _, decodeAt_of_opi hpc hopi, himm, bigEndian_toNat ..⟩

/-- Settles O11: past the array the fetch is that error, and inside it exactly a cut-off operand is. -/
theorem outOfInstructionsExactlyPastTheEnd : Obligations.OutOfInstructionsExactlyPastTheEnd := by
  intro program pc pos
  by_cases hpc : 65535 < pc.toNat
  · simp [decodeAt_past program hpc, hpc, eq_comm]
  · obtain ⟨_, hother, he⟩ | ⟨_, hmem, hcut, he⟩ | ⟨_, hroom, r, he⟩ :=
      decodeAt_inside_cases (program := program) (not_lt.1 hpc) rfl
    · simp only [he, hpc, hother]
      simp
    · simp only [he, hmem, hcut, not_lt.1 hpc]
      simp [eq_comm]
    · simp only [he, hpc, false_or, reduceCtorEq, false_iff]
      exact fun h => hroom ⟨h.2.1, h.2.2.2⟩

/-- Settles O12: past the array the fetch is another error, and inside it exactly a byte the map does not have is
rejected. -/
theorem illegalInstructionExactlyOnBytesFrom40 : Obligations.IllegalInstructionExactlyOnBytesFrom40 := by
  intro program pc b pos
  have hlow (h : (Memory.read program pc.toNat).toNat < 40) :
      ¬ (pos = pc ∧ pc.toNat ≤ 65535 ∧ b = Memory.read program pc.toNat ∧ 40 ≤ b.toNat) := by
    rintro ⟨_, _, rfl, hge⟩
    omega
  by_cases hpc : 65535 < pc.toNat
  · simp [decodeAt_past program hpc, hpc]
  · obtain ⟨hge, _, he⟩ | ⟨hlt, _, _, he⟩ | ⟨hlt, _, r, he⟩ :=
      decodeAt_inside_cases (program := program) (not_lt.1 hpc) rfl
    · rw [he]
      constructor
      · intro h
        cases h
        exact ⟨rfl, not_lt.1 hpc, rfl, hge⟩
      · rintro ⟨rfl, _, rfl, _⟩
        rfl
    · simpa [he] using hlow hlt
    · simpa [he] using hlow hlt
end

section
/-! SUPPORT. The canonical form of a state's two arrays is kept by every operation: it depends on the arrays alone, so
only the router's store and the placing of an image can touch it. -/

namespace Sys2Proof.Machine

/-- Bytes of value 0 leave the empty array empty: an unlisted position reads as 0 (D15). -/
theorem Memory.writeAll_nil_zeros (i n : Nat) : Memory.writeAll [] i (List.replicate n 0) = [] := by
  induction n generalizing i with
  | zero => rfl
  | succ n ih =>
    rw [List.replicate_succ, Memory.writeAll]
    split
    · exact ih (i + 1)
    · rfl

variable {p : Platform} {s t : State}

theorem State.wf_iff : s.wf = true ↔ Memory.wf s.memory = true ∧ Memory.wf s.program = true :=
  Bool.and_eq_true_iff

/-- The canonical form depends on the two arrays alone. -/
theorem State.wf_congr (hmemory : t.memory = s.memory) (hprogram : t.program = s.program) : t.wf = s.wf := by
  rw [State.wf, State.wf, hmemory, hprogram]

@[simp] theorem State.wf_setReg (s : State) (r : Reg) (v : Word) : (s.setReg r v).wf = s.wf :=
  State.wf_congr (s.setReg_memory r v) (s.setReg_program r v)

@[simp] theorem State.wf_advance (s : State) (len : Nat) : (s.advance len).wf = s.wf := rfl

@[simp] theorem State.wf_skip (s : State) : s.skip.wf = s.wf := by
  unfold State.skip
  split <;> rfl

/-- The image is in canonical form however long it is. -/
theorem State.wf_new (image : List Byte) (ndev : Nat) : (State.new image ndev).wf = true :=
  State.wf_iff.2 ⟨rfl, Memory.wf_writeAll 0 image rfl⟩

/-- A load changes neither array. -/
theorem wf_of_routeLoad {addr v : Word} (hs : s.wf = true) (h : routeLoad p s addr = .ok (v, t)) : t.wf = true := by
  obtain rfl | ⟨_, rfl⟩ := routeLoad_ok h
  · exact hs
  · exact hs

/-- A store writes one cell inside an array, or changes neither (R33). -/
theorem wf_of_routeStore {addr v : Word} (hs : s.wf = true) (h : routeStore p s addr v = .ok t) : t.wf = true := by
  obtain ⟨hmemory, hprogram⟩ := State.wf_iff.1 hs
  obtain ⟨haddr, rfl⟩ | ⟨_, haddr, rfl⟩ | ⟨_, _, rfl⟩ := routeStore_ok h
  · exact State.wf_iff.2 ⟨Memory.wf_write v (Nat.lt_succ_of_le haddr) hmemory, hprogram⟩
  · have hcell : addr.toNat - 0x10000 < Config.memWords := by
      show addr.toNat - 0x10000 < 65536
      omega
    exact State.wf_iff.2 ⟨hmemory, Memory.wf_write _ hcell hprogram⟩
  · exact hs

/-- Every instruction keeps the canonical form, on every platform. -/
theorem wf_of_execOn {i : Instr} (hs : s.wf = true) (h : execOn p i s = .next t) : t.wf = true := by
  have hload {r : Reg} {mode : AddrMode} (h : loadReg p r mode s = .next t) : t.wf = true := by
    obtain ⟨v, u, hu, rfl⟩ := loadReg_next h
    rw [State.wf_setReg]
    exact wf_of_routeLoad hs hu
  have hskip {rel : Relation} (h : skipWhen rel s = .next t) : t.wf = true := by
    unfold skipWhen at h
    split at h <;> cases h
    · rwa [State.wf_skip]
    · exact hs
  cases i with
  | noOp => cases h; exact hs
  | divide =>
    simp only [execOn, execDivide] at h
    split at h <;> cases h
    rwa [State.wf_setReg]
  | add | subtract | multiply => cases h; rwa [State.wf_setReg]
  | copyAB | copyBA | copyAX | copyBX | copyXA | copyXB | copyAS | copyBS | copyXS | copySA | copySB | copySX =>
    cases h; rwa [State.wf_setReg]
  | loadA | loadB | loadX => cases h; rwa [State.wf_setReg]
  | swapAB | swapAS | swapBS => cases h; rwa [State.wf_setReg, State.wf_setReg]
  | skipEq | skipGrEq | skipGr | skipLe | skipLeEq => exact hskip h
  | loadBusA | loadBusB | loadBusX | loadBusAS | loadBusBS | loadBusXS => exact hload h
  | pushABus | pushBBus | pushXBus | pushABusS | pushBBusS | pushXBusS => exact wf_of_routeStore hs (storeReg_next h)

end Sys2Proof.Machine

open Sys2Proof Sys2Proof.Machine

/-- Settles O19: a step is an instruction executed on the advanced state, the advance leaves the arrays, and every
instruction keeps their canonical form. -/
theorem stepKeepsCanonicalState : Obligations.StepKeepsCanonicalState := by
  intro s t hs hstep
  obtain ⟨i, len, _, hexec⟩ := step_next hstep
  have hadvance : (s.advance len).wf = true := by rwa [State.wf_advance]
  exact wf_of_execOn hadvance ((execOn_platform i _).trans hexec)

/-- Settles O2: zero bytes written into the empty array leave it empty. -/
theorem resetIsConstructionFromZeroImage : Obligations.ResetIsConstructionFromZeroImage := by
  intro n
  rw [State.new, Memory.writeAll_nil_zeros]
  rfl

/-- Settles O20: `memory` starts empty, and each byte of the image is a write inside an array in canonical form. -/
theorem constructionIsCanonical : Obligations.ConstructionIsCanonical :=
  State.wf_new

/-- Settles O21: the reset state is a constructed one. -/
theorem resetIsCanonical : Obligations.ResetIsCanonical := by
  have hnew : State.new (List.replicate 0 0) 0 = State.reset := resetIsConstructionFromZeroImage 0
  rw [Obligations.ResetIsCanonical, ← hnew]
  exact State.wf_new _ _
end

section
/-! SUPPORT. What the step runs where an encoding stands at X: in a constructed machine, and where an opcode-table word
was placed. -/

namespace Sys2Proof.Machine

variable {s : State} {i : Instr}

/-- Where a whole encoding stands at X, the step is its execute step on the advanced state (R76, R80). -/
theorem step_of_placed (hfits : s.regX.toNat + i.length ≤ 65536)
    (hbytes : ∀ n (h : n < (encode i).length), Memory.read s.program (s.regX.toNat + n) = (encode i)[n]) :
    step s = exec i (s.advance i.length) :=
  step_of_decodeAt_ok (decodeAt_of_placed hfits hbytes)

theorem tableWordBytes_length (nbits w : Nat) : (tableWordBytes nbits w).length = 9 := by
  simp [tableWordBytes, longestInstr, Config.immBytes]

/-- The nine bytes of an opcode-table word fit where they are placed (log 6). -/
theorem State.placePosition_fits (s : State) : s.placePosition.toNat + 9 ≤ 65536 := by
  unfold State.placePosition
  split
  · assumption
  · decide

/-- Nine bytes placed are read back where they were placed (log 6). -/
theorem State.read_placeBytes (s : State) {bytes : List Byte} (hlen : bytes.length = 9) {n : Nat}
    (hn : n < bytes.length) :
    Memory.read (s.placeBytes bytes).program ((s.placeBytes bytes).regX.toNat + n) = bytes[n] := by
  have hfits := s.placePosition_fits
  have hinside : s.placePosition.toNat ≤ s.placePosition.toNat + n ∧
      s.placePosition.toNat + n < s.placePosition.toNat + bytes.length ∧ s.placePosition.toNat + n < 65536 :=
    ⟨Nat.le_add_right _ _, by omega, by omega⟩
  rw [State.placeBytes_program, State.placeBytes_regX, Memory.read_writeAll, if_pos hinside, Nat.add_sub_cancel_left,
    List.getD_eq_getElem _ _ hn]

end Sys2Proof.Machine

open Sys2Proof Sys2Proof.Machine

/-- Settles O14: the advanced state is the one written out. -/
theorem stepRunsTheDecodedInstruction : Obligations.StepRunsTheDecodedInstruction :=
  fun _ _ _ hfetch => step_of_decodeAt_ok hfetch

/-- Settles O3: X is 0 after construction and the bytes of `program` from there on are those of the image, which begins
with the encoding. -/
theorem firstTickRunsInstructionAtPositionZero : Obligations.FirstTickRunsInstructionAtPositionZero := by
  intro image ndev i himage htake
  have hshort := i.length_le
  have hzero : (State.new image ndev).regX.toNat = 0 := rfl
  apply step_of_placed
  · omega
  · intro n hn
    have hlt : n < i.length := encode_length i ▸ hn
    rw [hzero, Nat.zero_add, State.read_new_program image ndev (by omega) (by omega)]
    simp only [← htake, List.getElem_take]

/-- Settles O56: what the decoder reads from the word begins with the encoding of the instruction, and the word's bytes
stand at X where they were placed. -/
theorem fetchWordPlacesTheInstructionToRun : Obligations.FetchWordPlacesTheInstructionToRun := by
  intro s nbits w i hword
  obtain ⟨n, hdecode⟩ : ∃ n, decodeBytes (tableWordBytes nbits w) = .ok (i, n) := by
    unfold decodeTableWord at hword
    split at hword
    · next j n hdecode => cases hword; exact ⟨n, hdecode⟩
    · cases hword
  obtain ⟨rfl, htake⟩ := encode_of_decodeBytes hdecode
  have hshort := i.length_le
  have hlen := tableWordBytes_length nbits w
  have hfits := s.placePosition_fits
  apply step_of_placed
  · rw [State.withFetchWord, State.placeBytes_regX]
    omega
  · intro n hn
    have hlt : n < i.length := encode_length i ▸ hn
    rw [State.withFetchWord, State.read_placeBytes s hlen (by omega)]
    simp only [← htake, List.getElem_take]
end

section
/-! SUPPORT. What the arithmetic, copy, swap and literal instructions complete with, and how a failed tick leaves the
core. -/

namespace Sys2Proof.Machine

variable {s : State}

/-- The result of the ALU goes to A and nothing else changes (R94). -/
theorem aluResult_completes (s : State) (v : Word) :
    ∃ t, aluResult v s = .next t ∧ t.regA = v ∧ OnlyRegs [.a] s t :=
  ⟨s.setReg .a v, rfl, s.setReg_a_regA v, onlyRegs_setReg s .a v⟩

/-- A literal goes to its register and nothing else changes (R120 to R122). -/
theorem loadLiteral_completes (s : State) (r : Reg) (imm : Word) :
    ∃ t, loadLiteral r imm s = .next t ∧ t.reg r = imm ∧ OnlyRegs [r] s t :=
  ⟨s.setReg r imm, rfl, s.reg_setReg_same r imm, onlyRegs_setReg s r imm⟩

/-- A difference modulo 2^64, as a number (R91, D5). -/
theorem ofInt_sub_toNat (a b : Word) :
    (BitVec.ofInt 64 ((a.toNat : Int) - b.toNat)).toNat =
      if b.toNat ≤ a.toNat then a.toNat - b.toNat else a.toNat + 2 ^ 64 - b.toNat := by
  have ha := a.isLt
  have hb := b.isLt
  rw [BitVec.toNat_ofInt]
  split <;> omega

/-- Divide with B not 0 is the ALU's quotient (R93). -/
theorem execDivide_of_ne_zero (h : s.regB ≠ 0) :
    execDivide s = aluResult (BitVec.ofNat 64 (s.regA.toNat / s.regB.toNat)) s :=
  if_neg h

/-- Divide with B = 0 raises (R93). -/
theorem execDivide_of_zero (h : s.regB = 0) : execDivide s = .fault .divideByZero :=
  if_pos h

/-- The meaning of each copy is the shared copy (R115). -/
theorem exec_copy {i : Instr} {src dst : Reg} (h : (i, src, dst) ∈ copyForms) : exec i s = copyReg src dst s := by
  have hforms : ∀ c ∈ copyForms, exec c.1 s = copyReg c.2.1 c.2.2 s := by
    simp only [copyForms, List.forall_mem_cons]
    exact ⟨rfl, rfl, rfl, rfl, rfl, rfl, rfl, rfl, rfl, rfl, rfl, rfl, nofun⟩
  exact hforms _ h

/-- The meaning of each swap is the shared swap, of two different registers (R115). -/
theorem exec_swap {i : Instr} {r q : Reg} (h : (i, r, q) ∈ swapForms) : exec i s = swapRegs r q s ∧ r ≠ q := by
  have hforms : ∀ c ∈ swapForms, exec c.1 s = swapRegs c.2.1 c.2.2 s ∧ c.2.1 ≠ c.2.2 := by
    simp only [swapForms, List.forall_mem_cons]
    exact ⟨⟨rfl, by decide⟩, ⟨rfl, by decide⟩, ⟨rfl, by decide⟩, nofun⟩
  exact hforms _ h

/-- A swap of two registers changes those two and nothing else. -/
theorem onlyRegs_swap (s : State) (r q : Reg) (v w : Word) : OnlyRegs [r, q] s ((s.setReg r v).setReg q w) := by
  refine ⟨fun y hy => ?_, fun _ => by simp, fun _ => by simp, by simp, by simp⟩
  obtain ⟨hr, hq⟩ : y ≠ r ∧ y ≠ q := by simpa using hy
  rw [State.reg_setReg_other _ _ _ _ hq, State.reg_setReg_other _ _ _ _ hr]

/-- An error leaves the core as it was (R156). -/
theorem sameCore_afterFault (s : State) (f : Fault) : SameCore s (s.afterFault f) :=
  ⟨fun r _ => by cases r <;> rfl, fun _ => rfl, fun _ => rfl⟩

/-- A step that raises is a tick that returns its error (R156). -/
theorem tick_of_step_fault {f : Fault} (h : step s = .fault f) : tick s = (.error f, s.afterFault f) := by
  rw [tick, h, State.commit_fault]

end Sys2Proof.Machine

open Sys2Proof Sys2Proof.Machine

/-- Settles O28: the ALU's result is the sum reduced to 64 bits. -/
theorem addIsSumModulo64Bits : Obligations.AddIsSumModulo64Bits := by
  refine ⟨rfl, rfl, fun s => ?_⟩
  obtain ⟨t, ht, hvalue, honly⟩ := aluResult_completes s (BitVec.ofNat 64 (s.regA.toNat + s.regB.toNat))
  exact ⟨t, ht, by rw [hvalue, BitVec.toNat_ofNat], honly⟩

/-- Settles O29: the ALU's result is the integer difference reduced to 64 bits. -/
theorem subtractWrapsBelowZero : Obligations.SubtractWrapsBelowZero := by
  intro s
  obtain ⟨t, ht, hvalue, honly⟩ := aluResult_completes s (BitVec.ofInt 64 ((s.regA.toNat : Int) - s.regB.toNat))
  exact ⟨t, ht, honly, by rw [hvalue, ofInt_sub_toNat]⟩

/-- Settles O30: the ALU's result is the product reduced to 64 bits. -/
theorem multiplyKeepsLow64Bits : Obligations.MultiplyKeepsLow64Bits := by
  intro s
  obtain ⟨t, ht, hvalue, honly⟩ := aluResult_completes s (BitVec.ofNat 64 (s.regA.toNat * s.regB.toNat))
  exact ⟨t, ht, by rw [hvalue, BitVec.toNat_ofNat], honly⟩

/-- Settles O31: the quotient of two 64-bit numbers is one, so the reduction keeps it; with B = 0 the step raises, and
the tick leaves the core as after any error. -/
theorem divideIsFloorQuotientOrDivideByZero : Obligations.DivideIsFloorQuotientOrDivideByZero := by
  refine ⟨rfl, rfl, fun s hb => ?_, fun s => execDivide_of_zero, fun s hb hfetch => ?_⟩
  · obtain ⟨t, ht, hvalue, honly⟩ := aluResult_completes s (BitVec.ofNat 64 (s.regA.toNat / s.regB.toNat))
    have hsmall : s.regA.toNat / s.regB.toNat < 2 ^ 64 := lt_of_le_of_lt (Nat.div_le_self _ _) s.regA.isLt
    exact ⟨t, (execDivide_of_ne_zero hb).trans ht, by rw [hvalue, BitVec.toNat_ofNat, Nat.mod_eq_of_lt hsmall], honly⟩
  · have hstep : step s = .fault .divideByZero :=
      (step_of_decodeAt_ok hfetch).trans (execDivide_of_zero (s := s.advance 1) hb)
    rw [tick_of_step_fault hstep]
    exact ⟨rfl, sameCore_afterFault s .divideByZero⟩

/-- Settles O32: each copy is one write of a register. -/
theorem copiesMoveOneRegister : Obligations.CopiesMoveOneRegister := by
  intro s i src dst hform
  exact ⟨_, exec_copy hform, s.reg_setReg_same dst (s.reg src), onlyRegs_setReg s dst (s.reg src)⟩

/-- Settles O33: each swap writes both registers from the old state, and the second write leaves the first. -/
theorem swapsExchangeTwoRegisters : Obligations.SwapsExchangeTwoRegisters := by
  intro s i r q hform
  obtain ⟨hexec, hne⟩ := exec_swap (s := s) hform
  refine ⟨_, hexec, ?_, State.reg_setReg_same _ q _, onlyRegs_swap s r q _ _⟩
  rw [State.reg_setReg_other _ _ _ _ hne, State.reg_setReg_same]

/-- Settles O34: the encoding's bytes are the digits of the immediate to base 256, the execute step is one write of a
register, and byte 12 is an OPI opcode, so its fetch needs the operand bytes. -/
theorem loadALoadsItsLiteral : Obligations.LoadALoadsItsLiteral := by
  refine ⟨fun imm => ⟨rfl, rfl, rfl, fun n hn => ?_⟩, fun s imm => loadLiteral_completes s .a imm,
    fun program pc hbyte hcut hpc => decodeAt_of_opi_cut (f := .loadA) hpc (by rw [hbyte]; rfl) hcut⟩
  rw [encode_of_immediate_some (i := .loadA imm) rfl, List.getElem?_cons_succ, immediateBytes_eq]
  interval_cases n <;> simp [Nat.shiftRight_eq_div_pow]

/-- Settles O35: each is one write of a register. -/
theorem loadBAndLoadXLoadTheirLiteral : Obligations.LoadBAndLoadXLoadTheirLiteral :=
  fun s imm => ⟨loadLiteral_completes s .b imm, loadLiteral_completes s .x imm⟩
end

section
/-! SUPPORT. The five Skips: each is the shared skip at its relation, and a skip inside the array moves X. -/

namespace Sys2Proof.Machine

variable {s : State} {i : Instr} {rel : Nat → Nat → Prop}

/-- The meaning of each Skip is the shared skip at the relation it names (R141 to R145, D7). -/
theorem exec_skip (s : State) (h : (i, rel) ∈ skipForms) :
    ∃ named : Relation, exec i s = skipWhen named s ∧
      (named.holds s.regA s.regB = true ↔ rel s.regA.toNat s.regB.toNat) := by
  have hforms : ∀ c ∈ skipForms, ∃ named : Relation, exec c.1 s = skipWhen named s ∧
      (named.holds s.regA s.regB = true ↔ c.2 s.regA.toNat s.regB.toNat) := by
    simp only [skipForms, List.forall_mem_cons]
    exact ⟨⟨.eq, rfl, decide_eq_true_iff⟩, ⟨.grEq, rfl, decide_eq_true_iff⟩, ⟨.gr, rfl, decide_eq_true_iff⟩,
      ⟨.le, rfl, decide_eq_true_iff⟩, ⟨.leEq, rfl, decide_eq_true_iff⟩, nofun⟩
  exact hforms _ h

theorem exec_skip_of_rel (h : (i, rel) ∈ skipForms) (hrel : rel s.regA.toNat s.regB.toNat) :
    exec i s = .next s.skip := by
  obtain ⟨named, hexec, hnamed⟩ := exec_skip s h
  rw [hexec, skipWhen, if_pos (hnamed.2 hrel)]

theorem exec_skip_of_not_rel (h : (i, rel) ∈ skipForms) (hrel : ¬ rel s.regA.toNat s.regB.toNat) :
    exec i s = .next s := by
  obtain ⟨named, hexec, hnamed⟩ := exec_skip s h
  rw [hexec, skipWhen, if_neg (mt hnamed.1 hrel)]

/-- Nothing changed, so nothing but the listed registers did. -/
theorem onlyRegs_refl (written : List Reg) (s : State) : OnlyRegs written s s :=
  ⟨fun _ _ => rfl, fun _ => rfl, fun _ => rfl, rfl, rfl⟩

/-- Where a next byte exists, skipping moves X: every instruction has a length of at least 1 (D8). -/
theorem skip_regX_ne (h : s.regX.toNat ≤ 65535) : s.skip.regX ≠ s.regX := by
  intro heq
  have hmoved := skip_regX s
  rw [heq, if_pos (by omega)] at hmoved
  have hilen := ilen_cases (Memory.read s.program s.regX.toNat)
  omega

/-- A Skip completes, changes at most X, and moves it exactly where its relation holds. -/
theorem exec_skip_moves_iff (h : (i, rel) ∈ skipForms) (hx : s.regX.toNat ≤ 65535) :
    ∃ t, exec i s = .next t ∧ OnlyRegs [.x] s t ∧ (t.regX ≠ s.regX ↔ rel s.regA.toNat s.regB.toNat) := by
  by_cases hrel : rel s.regA.toNat s.regB.toNat
  · exact ⟨s.skip, exec_skip_of_rel h hrel, onlyRegs_skip s, iff_of_true (skip_regX_ne hx) hrel⟩
  · exact ⟨s, exec_skip_of_not_rel h hrel, onlyRegs_refl _ s, iff_of_false (not_not.2 rfl) hrel⟩

end Sys2Proof.Machine

open Sys2Proof Sys2Proof.Machine

/-- Settles O53: a Skip whose relation holds is the skip, and the length it adds is `ilen` of the byte at X. -/
theorem skipPassesOneInstructionWhenItsRelationHolds : Obligations.SkipPassesOneInstructionWhenItsRelationHolds := by
  intro s i rel hform hrel
  refine ⟨s.skip, exec_skip_of_rel hform hrel, onlyRegs_skip s, ?_⟩
  rw [skip_regX]
  by_cases hx : 65535 < s.regX.toNat
  · rw [if_neg (by omega), if_pos hx]
  · rw [if_pos (by omega), if_neg hx, ilen]
    split <;> rfl

/-- Settles O54: a Skip is the shared skip, which answers its own state where the relation fails. -/
theorem skipDoesNothingWhenItsRelationFails : Obligations.SkipDoesNothingWhenItsRelationFails :=
  fun _ _ _ => exec_skip_of_not_rel

/-- Settles O55: each Skip moves X exactly where its relation holds, which the table says by less, equal and greater. -/
theorem skipTruthTable : Obligations.SkipTruthTable := by
  intro s hx
  have hmoves {i : Instr} {rel : Nat → Nat → Prop} (hform : (i, rel) ∈ skipForms) {row : Prop}
      (hrow : rel s.regA.toNat s.regB.toNat ↔ row) :
      ∃ t, exec i s = .next t ∧ OnlyRegs [.x] s t ∧ (t.regX ≠ s.regX ↔ row) := by
    rw [← hrow]
    exact exec_skip_moves_iff hform hx
  refine ⟨hmoves (rel := fun a b => a = b) (by simp [skipForms]) Iff.rfl,
    hmoves (rel := fun a b => a ≥ b) (by simp [skipForms]) ?_,
    hmoves (rel := fun a b => a > b) (by simp [skipForms]) Iff.rfl,
    hmoves (rel := fun a b => a < b) (by simp [skipForms]) Iff.rfl,
    hmoves (rel := fun a b => a ≤ b) (by simp [skipForms]) le_iff_lt_or_eq⟩
  rw [ge_iff_le, le_iff_lt_or_eq, eq_comm (a := s.regB.toNat)]
end

section
/-! SUPPORT. A load or a store completes or raises as the router does at its effective address. -/

namespace Sys2Proof.Machine

variable {p : Platform} {s t : State} {r : Reg} {mode : AddrMode}

theorem loadReg_of_ok {v : Word} (h : routeLoad p s (s.effAddr mode) = .ok (v, t)) :
    loadReg p r mode s = .next (t.setReg r v) := by
  rw [loadReg, memRead, h]

theorem loadReg_of_error {f : Fault} (h : routeLoad p s (s.effAddr mode) = .error f) :
    loadReg p r mode s = .fault f := by
  rw [loadReg, memRead, h]
  rfl

theorem storeReg_of_ok (h : routeStore p s (s.effAddr mode) (s.reg r) = .ok t) : storeReg p r mode s = .next t := by
  rw [storeReg, memWrite, h]

theorem storeReg_of_error {f : Fault} (h : routeStore p s (s.effAddr mode) (s.reg r) = .error f) :
    storeReg p r mode s = .fault f := by
  rw [storeReg, memWrite, h]
  rfl

/-- Where the fetch fails, the step on a platform raises its error (R80). -/
theorem stepOn_error {f : Fault} (h : decodeAt s.program s.regX = .error f) : stepOn p s = .fault f := by
  rw [stepOn, h]
  rfl

end Sys2Proof.Machine

open Sys2Proof Sys2Proof.Machine

/-- Settles O37: region 0's load answers the word and leaves the state, and one register is written. -/
theorem loadsFromMemoryComplete : Obligations.LoadsFromMemoryComplete := by
  intro s addr i r mode hform haddr
  have hroute := routeLoad_memory Config.platform s _ haddr
  exact ⟨_, (exec_load hform).trans (loadReg_of_ok hroute), s.reg_setReg_same r _, onlyRegs_setReg s r _⟩

/-- Settles O38: region 1's load answers the byte zero-extended and leaves the state, and one register is written. -/
theorem loadsFromProgramZeroExtend : Obligations.LoadsFromProgramZeroExtend := by
  intro s addr i r mode hform hlo hhi
  obtain ⟨v, hroute, hvalue, _⟩ := programLoadZeroExtends Config.platform s _ hlo hhi
  refine ⟨_, (exec_load hform).trans (loadReg_of_ok hroute), ?_, onlyRegs_setReg s r v⟩
  rw [State.reg_setReg_same, hvalue]

/-- Settles O39: the meaning of each load is the shared load. -/
theorem loadsAreRoutedReads : Obligations.LoadsAreRoutedReads := by
  intro s addr i r mode hform
  exact (exec_load hform).trans rfl

/-- Settles O40: region 0's store writes the word and leaves the rest of the state. -/
theorem storesToMemoryComplete : Obligations.StoresToMemoryComplete := by
  intro s addr i r mode hform haddr
  obtain ⟨_, t, hroute, hword, hothers, hregs, hprogram, hdevices, _⟩ :=
    memoryWordsRoundTrip Config.platform s _ (s.reg r) haddr
  exact ⟨t, (exec_store hform).trans (storeReg_of_ok hroute), hword, hothers, hregs, hprogram, hdevices⟩

/-- Settles O41: region 1's store writes the low byte and leaves the rest of the state. -/
theorem storesToProgramKeepLowByte : Obligations.StoresToProgramKeepLowByte := by
  intro s addr i r mode hform hlo hhi
  obtain ⟨t, hroute, hbyte, hothers, hregs, hmemory, hdevices, _⟩ :=
    programStoreTruncates Config.platform s _ (s.reg r) hlo hhi
  refine ⟨t, (exec_store hform).trans (storeReg_of_ok hroute), ?_, hothers, hregs, hmemory, hdevices⟩
  rw [hbyte, BitVec.extractLsb'_toNat, Nat.shiftRight_zero]

/-- Settles O42: the meaning of each store is the shared store. -/
theorem storesAreRoutedWrites : Obligations.StoresAreRoutedWrites := by
  intro s addr i r mode hform
  exact (exec_store hform).trans rfl

/-- Settles O43: the scan of an empty device list finds no device. -/
theorem accessWithoutDevicesIsIllegal : Obligations.AccessWithoutDevicesIsIllegal := by
  intro s addr i r mode hnone haddr
  constructor
  · intro hform
    have hroute : routeLoad Config.platform s (s.effAddr mode) = .error (.illegalAddressLoad (s.effAddr mode)) :=
      (routeLoad_device_illegal_iff _ s _ haddr).2 (by rw [hnone, scanLoad])
    exact (exec_load hform).trans (loadReg_of_error hroute)
  · intro hform
    have hroute : routeStore Config.platform s (s.effAddr mode) (s.reg r) =
        .error (.illegalAddressStore (s.effAddr mode)) :=
      (routeStore_device_illegal_iff _ s _ _ haddr).2 (by rw [hnone, scanStore])
    exact (exec_store hform).trans (storeReg_of_error hroute)

/-- Settles O58: loads and stores are the shared ones on the platform, every other instruction asks no device, and the
machine's own platform is one of them. -/
theorem executeTakesItsPlatform : Obligations.ExecuteTakesItsPlatform :=
  ⟨fun _ s => ⟨fun _ _ => stepOn_ok, fun _ => stepOn_error, fun _ _ _ _ hform => (execOn_load hform).trans rfl,
      fun _ _ _ _ hform => (execOn_store hform).trans rfl, fun _ => execOn_core s⟩,
    execOn_platform, fun s => ⟨stepOn_platform s, tickOn_platform s⟩⟩

/-- Settles O57: both bounds of the range are compared inclusively, so an inverted range holds no address. -/
theorem deviceClaimsItsInclusiveRange : Obligations.DeviceClaimsItsInclusiveRange := by
  intro p now addr k d
  refine ⟨deviceClaims_iff p now addr k d, fun hinverted => ?_⟩
  rw [deviceClaims_eq_false_iff]
  omega

/-- Settles O36: the advanced X is what a copy or a store of X sees. -/
theorem xReadersSeeTheNextPosition : Obligations.XReadersSeeTheNextPosition := by
  intro s
  have hcopy {i : Instr} {dst : Reg} (hform : (i, .x, dst) ∈ copyForms)
      (hfetch : decodeAt s.program s.regX = .ok (i, 1)) :
      ∃ t, step s = .next t ∧ (t.reg dst).toNat = s.regX.toNat + 1 := by
    obtain ⟨t, hexec, hvalue, _⟩ := copiesMoveOneRegister (s.advance 1) i .x dst hform
    exact ⟨t, (step_of_decodeAt_ok hfetch).trans hexec, by rw [hvalue, State.reg_x, advance_regX_toNat hfetch]⟩
  have hpush {i : Instr} {len : Nat} {addr : Word} {mode : AddrMode} (hform : (i, .x, mode) ∈ storeForms addr)
      (hfetch : decodeAt s.program s.regX = .ok (i, len)) (hea : ((s.advance len).effAddr mode).toNat ≤ 0xFFFF) :
      ∃ t, step s = .next t ∧
        (Memory.read t.memory ((s.advance len).effAddr mode).toNat).toNat = s.regX.toNat + len := by
    obtain ⟨t, hexec, hword, _⟩ := storesToMemoryComplete (s.advance len) addr i .x mode hform hea
    exact ⟨t, (step_of_decodeAt_ok hfetch).trans hexec, by rw [hword, State.reg_x, advance_regX_toNat hfetch]⟩
  exact ⟨hcopy (dst := .a) (by simp [copyForms]), hcopy (dst := .b) (by simp [copyForms]),
    hcopy (dst := .s) (by simp [copyForms]),
    fun addr hfetch hea => hpush (mode := .absolute addr) (addr := addr) (by simp [storeForms]) hfetch hea,
    fun hfetch hea => hpush (mode := .throughS) (addr := 0) (by simp [storeForms]) hfetch hea⟩

/-- Settles O52: the store leaves the low byte of A at the position, where the next fetch finds it as a whole
encoding. -/
theorem fetchSeesTheStoredOpcode : Obligations.FetchSeesTheStoredOpcode := by
  intro s pos i hpos hencode
  have hone : i.length = 1 := by rw [← encode_length, hencode]; rfl
  have hea : (s.effAddr (.absolute (0x10000 + pos))).toNat = 0x10000 + pos.toNat := by
    have hsmall : 0x10000 + pos.toNat < 2 ^ 64 := by omega
    exact (BitVec.toNat_add 0x10000 pos).trans (Nat.mod_eq_of_lt hsmall)
  obtain ⟨t, hexec, hbyte, _⟩ := storesToProgramKeepLowByte s (0x10000 + pos) (.pushABus (0x10000 + pos)) .a
    (.absolute (0x10000 + pos)) (by simp [storeForms]) (by omega) (by omega)
  rw [hea, Nat.add_sub_cancel_left] at hbyte
  have hstored : Memory.read t.program pos.toNat = s.regA.setWidth 8 :=
    BitVec.eq_of_toNat_eq (hbyte.trans (BitVec.toNat_setWidth 8 s.regA).symm)
  refine ⟨t, hexec, ?_⟩
  rw [step_of_placed (s := { t with regX := pos }) (i := i), hone]
  · show pos.toNat + i.length ≤ 65536
    omega
  · intro n hn
    obtain rfl : n = 0 := by rw [encode_length, hone] at hn; omega
    simp only [hencode, Nat.add_zero, List.getElem_cons_zero]
    exact hstored
end

section
/-! SUPPORT. The frame of an execute step: which registers, arrays and devices an instruction may change, on every
platform. -/

namespace Sys2Proof.Machine

/-- The device list keeps its length and order, and each device has received at most one more call (R22, R25). -/
def AtMostOneCall (ds es : List Device) : Prop :=
  es.length = ds.length ∧
    ∀ (k : Nat) (d e : Device), ds[k]? = some d → es[k]? = some e → e = d ∨ ∃ c, e.calls = d.calls ++ [c]

theorem atMostOneCall_refl (ds : List Device) : AtMostOneCall ds ds :=
  ⟨rfl, fun _ _ _ hd he => .inl (Option.some.inj (he.symm.trans hd))⟩

/-- A list whose devices are each as before or called with `c` has at most one more call in each. -/
theorem atMostOneCall_of_called {ds es : List Device} {c : DeviceCall} (hlen : es.length = ds.length)
    (h : ∀ (k : Nat) (d : Device), ds[k]? = some d → es[k]? = some d ∨ es[k]? = some (d.called c)) :
    AtMostOneCall ds es := by
  refine ⟨hlen, fun k d e hd he => ?_⟩
  obtain hsame | hcalled := h k d hd
  · exact .inl (Option.some.inj (he.symm.trans hsame))
  · obtain rfl : e = d.called c := Option.some.inj (he.symm.trans hcalled)
    exact .inr ⟨c, rfl⟩

section Scans

variable (p : Platform) (now : Nat) (addr v : Word)

theorem atMostOneCall_scanLoad (k : Nat) (found : Option Word) (ds : List Device) :
    AtMostOneCall ds (scanLoad p now addr k found ds).2 := by
  refine atMostOneCall_of_called (c := .load now addr) (scanLoad_length p now addr k found ds) fun j d hd => ?_
  rw [scanLoad_device, hd, Option.map_some]
  split
  · exact .inr rfl
  · exact .inl rfl

theorem atMostOneCall_scanStore (k : Nat) (found : Bool) (ds : List Device) :
    AtMostOneCall ds (scanStore p now addr v k found ds).devices := by
  refine atMostOneCall_of_called (c := .store now addr v) (scanStore_length p now addr v k found ds) fun j d hd => ?_
  rw [scanStore_device, hd, Option.map_some]
  split
  · exact .inr rfl
  · exact .inl rfl

end Scans

section Routes

variable {p : Platform} {s t : State} {addr v : Word}

/-- A load leaves the core and the tick counter (R32). -/
theorem routeLoad_sameCore (h : routeLoad p s addr = .ok (v, t)) : SameCore s t := by
  obtain rfl | ⟨_, rfl⟩ := routeLoad_ok h
  · exact ⟨fun _ _ => rfl, fun _ => rfl, fun _ => rfl⟩
  · exact ⟨sameRegsBut_replace [] s _ _ _ _, fun _ => rfl, fun _ => rfl⟩

theorem routeLoad_atMostOneCall (h : routeLoad p s addr = .ok (v, t)) : AtMostOneCall s.devices t.devices := by
  obtain rfl | ⟨_, rfl⟩ := routeLoad_ok h
  · exact atMostOneCall_refl _
  · exact atMostOneCall_scanLoad ..

/-- A store writes no register (R33). -/
theorem routeStore_sameRegs (h : routeStore p s addr v = .ok t) : SameRegsBut [] s t := by
  obtain ⟨_, rfl⟩ | ⟨_, _, rfl⟩ | ⟨_, _, rfl⟩ := routeStore_ok h <;> exact sameRegsBut_replace [] s _ _ _ _

theorem routeStore_atMostOneCall (h : routeStore p s addr v = .ok t) : AtMostOneCall s.devices t.devices := by
  obtain ⟨_, rfl⟩ | ⟨_, _, rfl⟩ | ⟨_, _, rfl⟩ := routeStore_ok h
  · exact atMostOneCall_refl _
  · exact atMostOneCall_refl _
  · exact atMostOneCall_scanStore ..

/-- A failing store lies inside the device list and leaves a list of its length (R39). -/
theorem routeStore_deviceError {a : Word} {k : Nat} {left : List Device}
    (h : routeStore p s addr v = .error (.deviceError a k left)) :
    k < s.devices.length ∧ left.length = s.devices.length := by
  obtain ⟨_, hillegal | ⟨m, hfailed, herror⟩⟩ := routeStore_error h
  · cases hillegal
  · cases herror
    have hlt := scanStore_failed_lt p s.ticks addr v 0 false s.devices k hfailed
    exact ⟨by omega, scanStore_length ..⟩

end Routes

section Execute

variable {p : Platform} {s t : State} {i : Instr}

/-- An instruction writes no register outside its row of the access table (R26). -/
theorem execOn_sameRegsBut (h : execOn p i s = .next t) : SameRegsBut (writtenRegs i) s t := by
  obtain honly | ⟨_, r, mode, v, u, _, hroute, rfl, hwritten⟩ | ⟨_, r, mode, _, hroute, hwritten⟩ := execOn_next h
  · exact honly.1
  · rw [hwritten]
    intro q hq
    exact ((onlyRegs_setReg u r v).1 q hq).trans ((routeLoad_sameCore hroute).1 q (by simp))
  · rw [hwritten]
    exact routeStore_sameRegs hroute

/-- An instruction makes at most one access, so it calls each device at most once (R45). -/
theorem execOn_atMostOneCall (h : execOn p i s = .next t) : AtMostOneCall s.devices t.devices := by
  obtain ⟨_, _, _, hdevices, _⟩ | ⟨_, r, mode, v, u, _, hroute, rfl, _⟩ | ⟨_, r, mode, _, hroute, _⟩ := execOn_next h
  · rw [hdevices]
    exact atMostOneCall_refl _
  · rw [State.setReg_devices]
    exact routeLoad_atMostOneCall hroute
  · exact routeStore_atMostOneCall hroute

end Execute

end Sys2Proof.Machine

open Sys2Proof Sys2Proof.Machine

/-- Settles O23: the frame of the execute step on every platform, at the machine's own. -/
theorem onlyNamedRegistersAreWritten : Obligations.OnlyNamedRegistersAreWritten := by
  intro i s t hexec
  exact execOn_sameRegsBut ((execOn_platform i s).trans hexec)

/-- Settles O22: the advance calls no device, and the instruction each at most once. -/
theorem deviceListIsFixed : Obligations.DeviceListIsFixed := by
  intro s t hstep
  obtain ⟨i, len, _, hexec⟩ := step_next hstep
  have hcalls : AtMostOneCall (s.advance len).devices t.devices :=
    execOn_atMostOneCall ((execOn_platform i _).trans hexec)
  exact hcalls

/-- Settles O24: an instruction that completes changes registers only, or makes one access of the router, and a load
leaves both arrays. -/
theorem onlyStoresChangeMemoryOrProgram : Obligations.OnlyStoresChangeMemoryOrProgram := by
  intro i s t hexec hnoStore
  obtain ⟨_, hmemory, hprogram, hdevices⟩ | ⟨addr, r, mode, v, u, hform, hroute, rfl, _⟩ |
    ⟨addr, r, mode, hform, _, _⟩ := exec_next hexec
  · exact ⟨hmemory, hprogram, fun _ => hdevices⟩
  · obtain ⟨_, hmemory, hprogram⟩ := routeLoad_sameCore hroute
    refine ⟨fun k => ?_, fun k => ?_, fun hnoLoad => absurd hform (hnoLoad addr r mode)⟩
    · rw [State.setReg_memory, hmemory]
    · rw [State.setReg_program, hprogram]
  · exact absurd hform (hnoStore addr r mode)

/-- Settles O25: the decoded instruction lies inside the array, so the advance reaches 65536 at most; the instruction
then leaves X, or skips at most nine bytes from a position inside the array. -/
theorem advanceNeverPassesTheEnd : Obligations.AdvanceNeverPassesTheEnd := by
  intro s t i len hfetch hstep
  have hexec : exec i (s.advance len) = .next t := (step_of_decodeAt_ok hfetch).symm.trans hstep
  obtain ⟨rfl, _, hend⟩ := decodeAt_ok hfetch
  have hadvance := advance_regX_toNat hfetch
  constructor
  · intro hwrites
    have hx : t.regX = (s.advance i.length).regX := onlyNamedRegistersAreWritten i _ t hexec .x hwrites
    rw [hx, hadvance]
    exact ⟨rfl, hend⟩
  · rintro ⟨rel, hform⟩
    by_cases hrel : rel (s.advance i.length).regA.toNat (s.advance i.length).regB.toNat
    · rw [exec_skip_of_rel hform hrel] at hexec
      cases hexec
      have hilen := ilen_cases (Memory.read (s.advance i.length).program (s.advance i.length).regX.toNat)
      rw [skip_regX]
      split <;> omega
    · rw [exec_skip_of_not_rel hform hrel] at hexec
      cases hexec
      omega
end

section
/-! SUPPORT. Runs: a tail of zero bytes is a run of NoOps, and an error of the core comes again at every later tick. -/

namespace Sys2Proof.Machine

variable {s t u : State}

theorem SameRegsBut.trans {written : List Reg} (hst : SameRegsBut written s t) (htu : SameRegsBut written t u) :
    SameRegsBut written s u :=
  fun r hr => (htu r hr).trans (hst r hr)

theorem SameCore.trans (hst : SameCore s t) (htu : SameCore t u) : SameCore s u := by
  obtain ⟨hregs, hmemory, hprogram⟩ := hst
  obtain ⟨hregs', hmemory', hprogram'⟩ := htu
  exact ⟨hregs.trans hregs', fun k => (hmemory' k).trans (hmemory k), fun k => (hprogram' k).trans (hprogram k)⟩

/-- From `n` zero bytes before the end of `program`, `n` NoOps lead to the end (R179). -/
theorem ticks_zero_tail (n : Nat) (s : State) (hx : s.regX.toNat + n = 65536)
    (hzero : ∀ k, s.regX.toNat ≤ k → k < 65536 → Memory.read s.program k = 0) :
    ∃ t, Ticks n s t ∧ t.regX.toNat = 65536 ∧ SameRegsBut [.x] s t ∧ SameMemory s t ∧ SameProgram s t ∧
      t.devices = s.devices := by
  induction n generalizing s with
  | zero => exact ⟨s, rfl, hx, fun _ _ => rfl, fun _ => rfl, fun _ => rfl, rfl⟩
  | succ n ih =>
    obtain ⟨-, -, -, hnoOp, -⟩ := noOpOnlyAdvancesX
    obtain ⟨u, hstep, hxu, hregs, hmemory, hprogram, hdevices⟩ := hnoOp s (by omega) (hzero _ le_rfl (by omega))
    obtain ⟨t, hticks, hxt, hregs', hmemory', hprogram', hdevices'⟩ :=
      ih u (by omega) fun k hk hlt => (hprogram k).trans (hzero k (by omega) hlt)
    exact ⟨t, ⟨u, hstep, hticks⟩, hxt, hregs.trans hregs', fun k => (hmemory' k).trans (hmemory k),
      fun k => (hprogram' k).trans (hprogram k), hdevices'.trans hdevices⟩

/-- The errors that depend on the core alone: the fetch's two and Divide's (R151, R152, R155). -/
def Fault.ofCore (f : Fault) : Prop :=
  (∃ pos, f = .outOfInstructions pos) ∨ (∃ b pos, f = .illegalInstruction b pos) ∨ f = .divideByZero

/-- A load raises no error of the core. -/
theorem not_ofCore_of_routeLoad {p : Platform} {addr : Word} {f : Fault} (h : routeLoad p s addr = .error f) :
    ¬ f.ofCore := by
  obtain ⟨_, rfl⟩ := routeLoad_error h
  simp [Fault.ofCore]

/-- A store raises no error of the core. -/
theorem not_ofCore_of_routeStore {p : Platform} {addr v : Word} {f : Fault} (h : routeStore p s addr v = .error f) :
    ¬ f.ofCore := by
  obtain ⟨_, rfl | ⟨k, _, rfl⟩⟩ := routeStore_error h <;> simp [Fault.ofCore]

/-- The fetch depends on X and the bytes of `program` alone (R75). -/
theorem decodeAt_of_sameCore (h : SameCore s t) : decodeAt t.program t.regX = decodeAt s.program s.regX := by
  obtain ⟨hregs, _, hprogram⟩ := h
  have hx : t.regX = s.regX := hregs .x (by simp)
  rw [hx]
  exact decodeAt_congr (fetchWindow_congr fun n _ _ => hprogram _)

/-- A state with the same core raises the same error of the core, whatever its devices are. -/
theorem step_fault_of_sameCore {f : Fault} (hcore : SameCore s t) (hf : f.ofCore) (hstep : step s = .fault f) :
    step t = .fault f := by
  have hfetch := decodeAt_of_sameCore hcore
  obtain herror | ⟨i, len, hdecode, hexec⟩ := step_fault hstep
  · exact step_of_decodeAt_error (hfetch.trans herror)
  · obtain ⟨rfl, hb, rfl⟩ | ⟨_, _, _, _, hroute⟩ | ⟨_, _, _, _, hroute⟩ :=
      execOn_fault ((execOn_platform i _).trans hexec)
    · have hbt : (t.advance len).regB = 0 := (hcore.1 .b (by simp)).trans hb
      exact (step_of_decodeAt_ok (hfetch.trans hdecode)).trans (execDivide_of_zero hbt)
    · exact absurd hf (not_ofCore_of_routeLoad hroute)
    · exact absurd hf (not_ofCore_of_routeStore hroute)

/-- What a tick that returns an error is: the step raised it, and the machine is left as after that error (R156). -/
theorem tick_error {f : Fault} (h : tick s = (.error f, t)) : step s = .fault f ∧ t = s.afterFault f := by
  rw [tick] at h
  cases hstep : step s with
  | next u => rw [hstep] at h; cases h
  | fault g => rw [hstep, State.commit_fault] at h; cases h; exact ⟨rfl, rfl⟩
  | refused r => rw [hstep] at h; cases h

/-- From a state with the core of one that raises an error of the core, every later tick returns that error. -/
theorem tick_afterTicks_of_sameCore {f : Fault} (hf : f.ofCore) (hstep : step s = .fault f) (n : Nat)
    (hcore : SameCore s t) : (tick (t.afterTicks n)).1 = .error f := by
  have htick {u : State} (hu : SameCore s u) : tick u = (.error f, u.afterFault f) :=
    tick_of_step_fault (step_fault_of_sameCore hu hf hstep)
  induction n generalizing t with
  | zero => rw [State.afterTicks, htick hcore]
  | succ n ih =>
    rw [State.afterTicks, htick hcore]
    exact ih (hcore.trans (sameCore_afterFault t f))

/-- Where the step raises DeviceError on a platform, the devices left are as many as before (R157). -/
theorem stepOn_deviceError_length {p : Platform} {addr : Word} {k : Nat} {left : List Device}
    (h : stepOn p s = .fault (.deviceError addr k left)) : left.length = s.devices.length := by
  obtain herror | ⟨i, len, _, hexec⟩ := stepOn_fault h
  · unfold decodeAt at herror
    split at herror <;> cases herror
  · obtain ⟨_, _, hdivide⟩ | ⟨_, _, _, _, hroute⟩ | ⟨_, _, _, _, hroute⟩ := execOn_fault hexec
    · cases hdivide
    · cases (routeLoad_error hroute).2
    · exact (routeStore_deviceError hroute).2

/-- An error leaves as many devices as there were (R156, R157). -/
theorem afterFault_devices_length {p : Platform} {f : Fault} (h : stepOn p s = .fault f) :
    (s.afterFault f).devices.length = s.devices.length := by
  cases f with
  | deviceError addr k left => exact stepOn_deviceError_length h
  | _ => rfl

end Sys2Proof.Machine

open Sys2Proof Sys2Proof.Machine

/-- Settles O26: the zero bytes are a run of NoOps to 65536, where there is no byte to fetch. -/
theorem zeroFilledTailRunsToTheEnd : Obligations.ZeroFilledTailRunsToTheEnd := by
  intro s hx hzero
  obtain ⟨t, hticks, hxt, hregs, hmemory, hprogram, hdevices⟩ :=
    ticks_zero_tail (65536 - s.regX.toNat) s (by omega) hzero
  have hend : t.regX = 65536 := BitVec.eq_of_toNat_eq hxt
  have hfault : step t = .fault (.outOfInstructions 65536) := by
    rw [step_of_decodeAt_error (decodeAt_past t.program (by omega)), hend]
  exact ⟨t, ⟨hticks, _, hfault⟩, hfault, hend, hregs, hmemory, hprogram, hdevices⟩

/-- Settles O16: the errors of an execute step are Divide's and the router's, whose own conditions are those stated. -/
theorem errorsBelongToTheirInstructions : Obligations.ErrorsBelongToTheirInstructions := by
  intro i s f hexec
  obtain hdivide | ⟨addr, r, mode, hform, hroute⟩ | ⟨addr, r, mode, hform, hroute⟩ :=
    execOn_fault ((execOn_platform i s).trans hexec)
  · exact .inl hdivide
  · obtain ⟨haddr, hf⟩ := routeLoad_error hroute
    exact .inr (.inl ⟨addr, r, mode, hform, haddr, hf⟩)
  · obtain ⟨haddr, hf⟩ := routeStore_error hroute
    refine .inr (.inr ⟨addr, r, mode, hform, haddr, hf.imp_right ?_⟩)
    rintro ⟨k, _, rfl⟩
    exact ⟨k, _, rfl, routeStore_deviceError hroute⟩

/-- Settles O17: a tick that returns an error leaves the machine as after that error. -/
theorem failedTickLeavesTheCore : Obligations.FailedTickLeavesTheCore := by
  intro s t f htick
  obtain ⟨hstep, rfl⟩ := tick_error htick
  exact ⟨sameCore_afterFault s f, afterFault_devices_length ((stepOn_platform s).trans hstep), s.afterFault_devices f⟩

/-- Settles O18: the error depends on the core alone, which every further tick leaves. -/
theorem coreErrorRepeatsForever : Obligations.CoreErrorRepeatsForever := by
  intro s t f htick hf n
  obtain ⟨hstep, rfl⟩ := tick_error htick
  exact tick_afterTicks_of_sameCore hf hstep n (sameCore_afterFault s f)
end

section
/-! SUPPORT. What the scans of the device bus find: the last claiming device's value, and the first failing device. -/

namespace Sys2Proof.Machine

section Scans

variable (p : Platform) (now : Nat) (addr v : Word)

/-- Where no device claims the address, the scan of a load keeps what was found before (R38). -/
theorem scanLoad_value_of_unclaimed {k : Nat} {found : Option Word} {ds : List Device}
    (h : ∀ j e, ds[j]? = some e → deviceClaims p now addr (k + j) e = false) :
    (scanLoad p now addr k found ds).1 = found := by
  induction ds generalizing k with
  | nil => rfl
  | cons d ds ih =>
    obtain ⟨hd, hds⟩ := (forall_device_cons_iff (P := fun j e => deviceClaims p now addr j e = false)).1 h
    rw [scanLoad, if_neg (by simp [hd])]
    exact ih hds

/-- The scan of a load finds the value of the last claiming device (R38, D24). -/
theorem scanLoad_value_of_last {k j : Nat} {found : Option Word} {ds : List Device} {d : Device}
    (hd : ds[j]? = some d) (hclaims : deviceClaims p now addr (k + j) d = true)
    (hlater : ∀ m e, j < m → ds[m]? = some e → deviceClaims p now addr (k + m) e = false) :
    (scanLoad p now addr k found ds).1 = some (p.loadValue (k + j) d.calls now addr) := by
  induction ds generalizing k j found with
  | nil => cases hd
  | cons d₀ ds ih =>
    have hshift (m : Nat) : k + (m + 1) = k + 1 + m := by omega
    rw [scanLoad]
    cases j with
    | zero =>
      cases hd
      rw [Nat.add_zero k] at hclaims ⊢
      rw [if_pos hclaims]
      refine scanLoad_value_of_unclaimed p now addr fun m e he => ?_
      rw [← hshift]
      exact hlater (m + 1) e m.succ_pos he
    | succ j =>
      rw [hshift j] at hclaims ⊢
      have hlater' : ∀ m e, j < m → ds[m]? = some e → deviceClaims p now addr (k + 1 + m) e = false := by
        intro m e hm he
        rw [← hshift]
        exact hlater (m + 1) e (Nat.succ_lt_succ hm) he
      split <;> exact ih hd hclaims hlater'

/-- The scan of a store fails at no device where the store of every claiming device succeeds (R39). -/
theorem scanStore_failed_eq_none {k : Nat} {found : Bool} {ds : List Device}
    (h : ∀ j e, ds[j]? = some e → deviceClaims p now addr (k + j) e = true →
      p.storeOk (k + j) e.calls now addr v = true) : (scanStore p now addr v k found ds).failed = none := by
  induction ds generalizing k found with
  | nil => rfl
  | cons d ds ih =>
    obtain ⟨hd, hds⟩ := (forall_device_cons_iff (P := fun j e => deviceClaims p now addr j e = true →
      p.storeOk j e.calls now addr v = true)).1 h
    rw [scanStore]
    split
    · next hclaims =>
      rw [if_pos (hd hclaims)]
      exact ih hds
    · exact ih hds

/-- The scan of a store fails at the first claiming device whose store fails (R39, D13). -/
theorem scanStore_failed_of_first {k j : Nat} {found : Bool} {ds : List Device} {d : Device}
    (hd : ds[j]? = some d) (hclaims : deviceClaims p now addr (k + j) d = true)
    (hfails : p.storeOk (k + j) d.calls now addr v = false)
    (hearlier : ∀ m e, m < j → ds[m]? = some e → deviceClaims p now addr (k + m) e = true →
      p.storeOk (k + m) e.calls now addr v = true) :
    (scanStore p now addr v k found ds).failed = some (k + j) := by
  induction ds generalizing k j found with
  | nil => cases hd
  | cons d₀ ds ih =>
    have hshift (m : Nat) : k + (m + 1) = k + 1 + m := by omega
    rw [scanStore]
    cases j with
    | zero =>
      cases hd
      rw [Nat.add_zero k] at hclaims hfails ⊢
      rw [if_pos hclaims, if_neg (by rw [hfails]; decide)]
    | succ j =>
      have hfirst : deviceClaims p now addr k d₀ = true → p.storeOk k d₀.calls now addr v = true :=
        hearlier 0 d₀ j.succ_pos rfl
      rw [hshift j] at hclaims hfails ⊢
      have hearlier' : ∀ m e, m < j → ds[m]? = some e → deviceClaims p now addr (k + 1 + m) e = true →
          p.storeOk (k + 1 + m) e.calls now addr v = true := by
        intro m e hm he
        rw [← hshift]
        exact hearlier (m + 1) e (Nat.succ_lt_succ hm) he
      split
      · next hc =>
        rw [if_pos (hfirst hc)]
        exact ih hd hclaims hfails hearlier'
      · exact ih hd hclaims hfails hearlier'

end Scans

section Routes

variable {p : Platform} {s : State} {addr v : Word}

/-- From 0x20000 on a load answers what its scan finds (R37). -/
theorem routeLoad_of_scan {w : Word} (h : 0x20000 ≤ addr.toNat)
    (hscan : (scanLoad p s.ticks addr 0 none s.devices).1 = some w) :
    routeLoad p s addr = .ok (w, { s with devices := (scanLoad p s.ticks addr 0 none s.devices).2 }) := by
  rw [routeLoad_device p s addr h]
  split
  · next x ds heq =>
    rw [heq] at hscan ⊢
    cases hscan
    rfl
  · next ds heq =>
    rw [heq] at hscan
    cases hscan

/-- From 0x20000 on a store succeeds where its scan finds a device and none fails (R39). -/
theorem routeStore_of_scan (h : 0x20000 ≤ addr.toNat)
    (hfailed : (scanStore p s.ticks addr v 0 false s.devices).failed = none)
    (hfound : (scanStore p s.ticks addr v 0 false s.devices).found = true) :
    routeStore p s addr v = .ok { s with devices := (scanStore p s.ticks addr v 0 false s.devices).devices } := by
  rw [routeStore_device p s addr v h, hfailed]
  exact if_pos hfound

/-- From 0x20000 on a store raises DeviceError of the device its scan stops at (R39). -/
theorem routeStore_of_scan_failed {k : Nat} (h : 0x20000 ≤ addr.toNat)
    (hfailed : (scanStore p s.ticks addr v 0 false s.devices).failed = some k) :
    routeStore p s addr v =
      .error (.deviceError addr k (scanStore p s.ticks addr v 0 false s.devices).devices) := by
  rw [routeStore_device p s addr v h, hfailed]

end Routes

end Sys2Proof.Machine

open Sys2Proof Sys2Proof.Machine

/-- Settles O48: the scan finds the last claiming device's value, and calls the claiming devices. -/
theorem lastClaimingDeviceAnswersLoad : Obligations.LastClaimingDeviceAnswersLoad := by
  intro p s addr k d haddr hd hmin hmax hlater
  have hvalue : (scanLoad p s.ticks addr 0 none s.devices).1 = some (p.loadValue (0 + k) d.calls s.ticks addr) := by
    refine scanLoad_value_of_last p s.ticks addr hd ?_ fun j e hj he => ?_ <;> rw [Nat.zero_add]
    · exact (deviceClaims_iff ..).2 ⟨hmin, hmax⟩
    · exact (deviceClaims_eq_false_iff ..).2 (hlater j e hj he)
  rw [Nat.zero_add] at hvalue
  have hroute := routeLoad_of_scan haddr hvalue
  refine ⟨_, hroute, routeLoad_sameCore hroute, rfl, scanLoad_length .., fun j e he => ?_⟩
  rw [scanLoad_device, he, Option.map_some, Nat.zero_add]
  exact congrArg some (if_congr (deviceClaims_iff ..) rfl rfl)

/-- Settles O49: the scan finds a device, fails at none, and calls the claiming devices. -/
theorem storeReachesEveryClaimingDevice : Obligations.StoreReachesEveryClaimingDevice := by
  rintro p s addr v haddr ⟨k, d, hd, hclaims⟩ hall
  have hfailed : (scanStore p s.ticks addr v 0 false s.devices).failed = none :=
    scanStore_failed_eq_none p s.ticks addr v fun j e he => by rw [Nat.zero_add]; exact hall j e he
  have hfound : (scanStore p s.ticks addr v 0 false s.devices).found = true := by
    by_contra hnone
    obtain ⟨_, hunclaimed⟩ := (scanStore_not_found_iff ..).1 (Bool.eq_false_iff.2 hnone)
    have hclaimed := hunclaimed k d hd
    rw [Nat.zero_add, hclaims] at hclaimed
    cases hclaimed
  refine ⟨_, routeStore_of_scan haddr hfailed hfound, ⟨sameRegsBut_replace [] s _ _ _ _, fun _ => rfl, fun _ => rfl⟩,
    rfl, scanStore_length .., fun j e he => ?_⟩
  rw [scanStore_device, he, Option.map_some, Nat.zero_add]
  exact congrArg some (if_congr (by simp [hfailed]) rfl rfl)

/-- Settles O50: the scan stops at the first failing device, having called the claiming devices up to it. -/
theorem storeStopsAtFirstFailingDevice : Obligations.StoreStopsAtFirstFailingDevice := by
  intro p s addr v k d haddr hd hclaims hfails hearlier
  have hfailed : (scanStore p s.ticks addr v 0 false s.devices).failed = some (0 + k) := by
    refine scanStore_failed_of_first p s.ticks addr v hd ?_ ?_ fun j e hj he => ?_ <;> rw [Nat.zero_add]
    · exact hclaims
    · exact hfails
    · exact hearlier j e hj he
  rw [Nat.zero_add] at hfailed
  refine ⟨_, routeStore_of_scan_failed haddr hfailed, scanStore_length .., fun j e he => ?_⟩
  rw [scanStore_device, he, Option.map_some, Nat.zero_add]
  exact congrArg some (if_congr (by simp [hfailed, and_comm]) rfl rfl)
end

section
/-! SUPPORT. On a platform made of device models the router's scans are the loops of R32 and R33 over the models'
states. -/

namespace Sys2Proof.Machine

variable {σ : Type} (models : Nat → DeviceModel σ) (now : Nat) (addr v : Word)

/-- A modelled device claims an address as its present state has it (R41). -/
theorem ofModels_claims (k : Nat) (d : Device) :
    deviceClaims (Platform.ofModels models) now addr k d =
      rangeClaims ((models k).range ((models k).stateAfter d.calls)) addr := rfl

theorem stateAfter_called (m : DeviceModel σ) (d : Device) (c : DeviceCall) :
    m.stateAfter (d.called c).calls = m.react (m.stateAfter d.calls) c :=
  m.stateAfter_append d.calls c

/-- The router's scan of a load is the loop of R32 over the models' states. -/
theorem scanLoad_models (k : Nat) (found : Option Word) (ds : List Device) :
    (scanLoad (Platform.ofModels models) now addr k found ds).1 =
        (modelScanLoad models addr k found (modelStates models k ds)).1 ∧
      modelStates models k (scanLoad (Platform.ofModels models) now addr k found ds).2 =
        (modelScanLoad models addr k found (modelStates models k ds)).2 := by
  induction ds generalizing k found with
  | nil => exact ⟨rfl, rfl⟩
  | cons d ds ih =>
    rw [modelStates, scanLoad, modelScanLoad, ofModels_claims]
    split
    · obtain ⟨hvalue, hstates⟩ := ih (k + 1) (some ((models k).load ((models k).stateAfter d.calls) addr).1)
      refine ⟨hvalue, ?_⟩
      rw [modelStates, stateAfter_called]
      exact congrArg _ hstates
    · obtain ⟨hvalue, hstates⟩ := ih (k + 1) found
      exact ⟨hvalue, congrArg _ hstates⟩

/-- The router's scan of a store is the loop of R33 over the models' states. -/
theorem scanStore_models (k : Nat) (found : Bool) (ds : List Device) :
    (scanStore (Platform.ofModels models) now addr v k found ds).found =
        (modelScanStore models addr v k found (modelStates models k ds)).1 ∧
      (scanStore (Platform.ofModels models) now addr v k found ds).failed =
        (modelScanStore models addr v k found (modelStates models k ds)).2.1 ∧
      modelStates models k (scanStore (Platform.ofModels models) now addr v k found ds).devices =
        (modelScanStore models addr v k found (modelStates models k ds)).2.2 := by
  have hok (k : Nat) (d : Device) : (Platform.ofModels models).storeOk k d.calls now addr v =
      ((models k).store ((models k).stateAfter d.calls) addr v).1 := rfl
  induction ds generalizing k found with
  | nil => exact ⟨rfl, rfl, rfl⟩
  | cons d ds ih =>
    rw [modelStates, scanStore, modelScanStore, ofModels_claims, hok]
    split
    · split
      · next hstored =>
        obtain ⟨hfound, hfailed, hstates⟩ := ih (k + 1) true
        simp only [if_pos hstored]
        refine ⟨hfound, hfailed, ?_⟩
        rw [modelStates, stateAfter_called]
        exact congrArg _ hstates
      · next hfails =>
        simp only [if_neg hfails]
        refine ⟨trivial, trivial, ?_⟩
        rw [modelStates, stateAfter_called]
        rfl
    · obtain ⟨hfound, hfailed, hstates⟩ := ih (k + 1) found
      exact ⟨hfound, hfailed, congrArg _ hstates⟩

end Sys2Proof.Machine

open Sys2Proof Sys2Proof.Machine

/-- Settles O51: both scans are the loops from position 0 on. -/
theorem routerScansRefineDeviceModels : Obligations.RouterScansRefineDeviceModels :=
  fun _ models now addr v devices =>
    ⟨scanLoad_models models now addr 0 none devices, scanStore_models models now addr v 0 false devices⟩
end

section
/-! SUPPORT. A machine built with its devices: a load or a store from 0x20000 on is the spec's loop over the devices in
their present states, and a tick keeps the list. -/

namespace Sys2Proof.Machine

section Live

variable {attached : List AttachedDevice} {s : State} {addr v : Word}

/-- Where the loop of R32 finds a value, the router answers it and leaves the devices as the loop does. -/
theorem routeLoad_of_live (h : 0x20000 ≤ addr.toNat)
    (hlive : (liveScanLoad addr none (liveFrom attached 0 s.devices)).1 = some v) :
    ∃ ds, routeLoad (Platform.ofDevices attached) s addr = .ok (v, { s with devices := ds }) ∧
      liveFrom attached 0 ds = (liveScanLoad addr none (liveFrom attached 0 s.devices)).2 := by
  obtain ⟨hvalue, hstates⟩ := scanLoad_live (attached := attached) s.ticks addr 0 none s.devices
  exact ⟨_, routeLoad_of_scan h (hvalue.trans hlive), hstates⟩

/-- Where the loop of R32 finds none, the router raises (R42). -/
theorem routeLoad_of_live_none (h : 0x20000 ≤ addr.toNat)
    (hlive : (liveScanLoad addr none (liveFrom attached 0 s.devices)).1 = none) :
    routeLoad (Platform.ofDevices attached) s addr = .error (.illegalAddressLoad addr) :=
  (routeLoad_device_illegal_iff _ s addr h).2 ((scanLoad_live s.ticks addr 0 none s.devices).1.trans hlive)

theorem StoreScan.ending_failed {r : StoreScan} {k : Nat} (h : r.ending = .failed k) : r.failed = some k := by
  unfold StoreScan.ending at h
  split at h
  · next m hfailed => cases h; exact hfailed
  · split at h <;> cases h

theorem StoreScan.ending_done {r : StoreScan} (h : r.ending = .done) : r.failed = none ∧ r.found = true := by
  unfold StoreScan.ending at h
  split at h
  · cases h
  · next hfailed =>
    split at h
    · next hfound => exact ⟨hfailed, hfound⟩
    · cases h

theorem StoreScan.ending_unclaimed {r : StoreScan} (h : r.ending = .unclaimed) : r.found = false := by
  unfold StoreScan.ending at h
  split at h
  · cases h
  · split at h
    · cases h
    · next hfound => exact Bool.eq_false_iff.2 hfound

/-- Where the loop of R33 is done, the router's store succeeds and leaves the devices as the loop does. -/
theorem routeStore_of_live_done (h : 0x20000 ≤ addr.toNat)
    (hlive : (liveScanStore addr v 0 false (liveFrom attached 0 s.devices)).1 = .done) :
    ∃ ds, routeStore (Platform.ofDevices attached) s addr v = .ok { s with devices := ds } ∧
      liveFrom attached 0 ds = (liveScanStore addr v 0 false (liveFrom attached 0 s.devices)).2 := by
  obtain ⟨hending, hstates⟩ := scanStore_live (attached := attached) s.ticks addr v 0 false s.devices
  obtain ⟨hfailed, hfound⟩ := StoreScan.ending_done (hending.trans hlive)
  exact ⟨_, routeStore_of_scan h hfailed hfound, hstates⟩

/-- Where no device claims the address in the loop of R33, the router's store raises (R42). -/
theorem routeStore_of_live_unclaimed (h : 0x20000 ≤ addr.toNat)
    (hlive : (liveScanStore addr v 0 false (liveFrom attached 0 s.devices)).1 = .unclaimed) :
    routeStore (Platform.ofDevices attached) s addr v = .error (.illegalAddressStore addr) := by
  obtain ⟨hending, _⟩ := scanStore_live (attached := attached) s.ticks addr v 0 false s.devices
  exact (routeStore_device_illegal_iff _ s addr v h).2 (StoreScan.ending_unclaimed (hending.trans hlive))

/-- Where the loop of R33 fails at a device, the router raises DeviceError of it and leaves the devices as the loop
does (D13). -/
theorem routeStore_of_live_failed {k : Nat} (h : 0x20000 ≤ addr.toNat)
    (hlive : (liveScanStore addr v 0 false (liveFrom attached 0 s.devices)).1 = .failed k) :
    ∃ left, routeStore (Platform.ofDevices attached) s addr v = .error (.deviceError addr k left) ∧
      liveFrom attached 0 left = (liveScanStore addr v 0 false (liveFrom attached 0 s.devices)).2 := by
  obtain ⟨hending, hstates⟩ := scanStore_live (attached := attached) s.ticks addr v 0 false s.devices
  exact ⟨_, routeStore_of_scan_failed h (StoreScan.ending_failed (hending.trans hlive)), hstates⟩

end Live

section Tick

variable {m : System} {t : State} {f : Fault}

/-- A step that completes is a tick that succeeds with its state. -/
theorem System.tick_of_next (h : stepOn (Platform.ofDevices m.attached) m.core = .next t) :
    m.tick = (.ok, { m with core := t }) := by
  rw [System.tick, tickOn, h, State.commit_next]

/-- A step that raises is a tick that returns its error (R156). -/
theorem System.tick_of_fault (h : stepOn (Platform.ofDevices m.attached) m.core = .fault f) :
    m.tick = (.error f, { m with core := m.core.afterFault f }) := by
  rw [System.tick, tickOn, h, State.commit_fault]

/-- The effective address does not depend on X (R125). -/
@[simp] theorem effAddr_advance (s : State) (len : Nat) (mode : AddrMode) :
    (s.advance len).effAddr mode = s.effAddr mode := by
  cases mode <;> rfl

section Access

variable {addr v : Word} {i : Instr} {r : Reg} {mode : AddrMode} {len : Nat}

/-- A tick whose load the router answers writes the value to the load's register. -/
theorem System.tick_of_load_ok (hfetch : decodeAt m.core.program m.core.regX = .ok (i, len))
    (hform : (i, r, mode) ∈ loadForms addr)
    (hroute : routeLoad (Platform.ofDevices m.attached) (m.core.advance len) (m.core.effAddr mode) = .ok (v, t)) :
    m.tick = (.ok, { m with core := t.setReg r v }) := by
  rw [← effAddr_advance m.core len] at hroute
  exact System.tick_of_next ((stepOn_ok hfetch).trans ((execOn_load hform).trans (loadReg_of_ok hroute)))

/-- A tick whose load the router answers with an error leaves the machine as after that error (R156). -/
theorem System.tick_of_load_error (hfetch : decodeAt m.core.program m.core.regX = .ok (i, len))
    (hform : (i, r, mode) ∈ loadForms addr)
    (hroute : routeLoad (Platform.ofDevices m.attached) (m.core.advance len) (m.core.effAddr mode) = .error f) :
    m.tick = (.error f, { m with core := m.core.afterFault f }) := by
  rw [← effAddr_advance m.core len] at hroute
  exact System.tick_of_fault ((stepOn_ok hfetch).trans ((execOn_load hform).trans (loadReg_of_error hroute)))

/-- A tick whose store the router takes ends in the state the router leaves. -/
theorem System.tick_of_store_ok (hfetch : decodeAt m.core.program m.core.regX = .ok (i, len))
    (hform : (i, r, mode) ∈ storeForms addr)
    (hroute : routeStore (Platform.ofDevices m.attached) (m.core.advance len) (m.core.effAddr mode)
      ((m.core.advance len).reg r) = .ok t) : m.tick = (.ok, { m with core := t }) := by
  rw [← effAddr_advance m.core len] at hroute
  exact System.tick_of_next ((stepOn_ok hfetch).trans ((execOn_store hform).trans (storeReg_of_ok hroute)))

/-- A tick whose store the router answers with an error leaves the machine as after that error (R156). -/
theorem System.tick_of_store_error (hfetch : decodeAt m.core.program m.core.regX = .ok (i, len))
    (hform : (i, r, mode) ∈ storeForms addr)
    (hroute : routeStore (Platform.ofDevices m.attached) (m.core.advance len) (m.core.effAddr mode)
      ((m.core.advance len).reg r) = .error f) : m.tick = (.error f, { m with core := m.core.afterFault f }) := by
  rw [← effAddr_advance m.core len] at hroute
  exact System.tick_of_fault ((stepOn_ok hfetch).trans ((execOn_store hform).trans (storeReg_of_error hroute)))

end Access

/-- The advance followed by calls of devices changes no register but X. -/
theorem sameRegsBut_advance_devices (s : State) (len : Nat) (ds : List Device) :
    SameRegsBut [.x] s { s.advance len with devices := ds } :=
  (sameRegsBut_advance s len).trans (sameRegsBut_replace [.x] (s.advance len) _ _ _ _)

/-- A tick keeps the number of devices, whether it succeeds or not (R22, R156). -/
theorem tickOn_devices_length (p : Platform) (s : State) : (tickOn p s).2.devices.length = s.devices.length := by
  rw [tickOn]
  cases hstep : stepOn p s with
  | next t =>
    obtain ⟨i, len, _, hexec⟩ := stepOn_next hstep
    exact (execOn_atMostOneCall hexec).1
  | fault f => exact afterFault_devices_length hstep
  | refused r => rfl

/-- Any number of ticks keeps the supplied devices and the number of call histories. -/
theorem System.afterTicks_devices (n : Nat) (m : System) :
    (m.afterTicks n).attached = m.attached ∧ (m.afterTicks n).core.devices.length = m.core.devices.length := by
  induction n generalizing m with
  | zero => exact ⟨rfl, rfl⟩
  | succ n ih =>
    obtain ⟨hattached, hlength⟩ := ih m.tick.2
    rw [System.tick_core, tickOn_devices_length] at hlength
    exact ⟨hattached, hlength⟩

end Tick

end Sys2Proof.Machine

open Sys2Proof Sys2Proof.Machine

/-- Settles O60: before any call a device is in its initial state, and no tick changes the list or its length. -/
theorem systemKeepsItsDevices : Obligations.SystemKeepsItsDevices := by
  intro image attached
  refine ⟨rfl, ?_, fun n => ?_⟩
  · rw [System.live, System.new_core, State.new_devices, System.new_attached, ← List.map_const', List.zipWith_map_right,
      List.zipWith_self]
    rfl
  · obtain ⟨hattached, hlength⟩ := (System.new image attached).afterTicks_devices n
    rw [System.new_core, State.new_devices_length] at hlength
    refine ⟨hattached, ?_⟩
    rw [System.live, List.length_zipWith, hattached, hlength, System.new_attached, Nat.min_self]

/-- Settles O59: the decoded load or store is the router's on the supplied devices, which answers as the spec's loop
ends; an error leaves the core. -/
theorem ticksRunTheSuppliedDevices : Obligations.TicksRunTheSuppliedDevices := by
  intro m addr i r mode len hfetch haddr
  refine ⟨fun hform => ⟨fun v hlive => ?_, fun hlive => ?_⟩, ?_⟩
  · obtain ⟨ds, hroute, hstates⟩ := routeLoad_of_live (s := m.core.advance len) haddr hlive
    have hregs := sameRegsBut_advance_devices m.core len ds
    refine ⟨_, System.tick_of_load_ok hfetch hform hroute, State.reg_setReg_same .., fun hx => ?_, fun q hq => ?_,
      fun _ => ?_, fun _ => ?_, rfl, ?_⟩
    · exact State.reg_setReg_other _ r .x v (Ne.symm hx)
    · obtain ⟨hr, hx⟩ : q ≠ r ∧ q ≠ .x := by simpa using hq
      exact (State.reg_setReg_other _ r q v hr).trans (hregs q (by simpa using hx))
    · rw [State.setReg_memory, State.advance_memory]
    · rw [State.setReg_program, State.advance_program]
    · rw [System.live_eq, State.setReg_devices]
      exact hstates
  · have hroute := routeLoad_of_live_none (s := m.core.advance len) haddr hlive
    exact ⟨_, System.tick_of_load_error hfetch hform hroute, sameCore_afterFault _ _, rfl, rfl⟩
  · rintro hform v rfl
    refine ⟨fun hlive => ?_, fun hlive => ?_, fun k hlive => ?_⟩
    · obtain ⟨ds, hroute, hstates⟩ := routeStore_of_live_done (s := m.core.advance len) haddr hlive
      exact ⟨_, System.tick_of_store_ok hfetch hform hroute, rfl, sameRegsBut_advance_devices m.core len ds,
        fun _ => rfl, fun _ => rfl, rfl, hstates⟩
    · have hroute := routeStore_of_live_unclaimed (s := m.core.advance len) haddr hlive
      exact ⟨_, System.tick_of_store_error hfetch hform hroute, sameCore_afterFault _ _, rfl, rfl⟩
    · obtain ⟨left, hroute, hstates⟩ := routeStore_of_live_failed (s := m.core.advance len) haddr hlive
      exact ⟨_, left, System.tick_of_store_error hfetch hform hroute, sameCore_afterFault _ _, rfl, hstates⟩
end
